-- ==== Sys2Proof/Word.lean ====
section
/-! DEFINITION. The word types of CORE: the widths the spec gives its registers, bytes and fields
(10_state.md R20, R23, R24; 30_encoding.md R82). -/

namespace Sys2Proof

/-- An 8-bit value: a general register, a memory byte, a timer, the immediate kk. -/
abbrev Byte := BitVec 8

/-- A 16-bit value: I, pc, a stack slot, an instruction word. -/
abbrev Word := BitVec 16

/-- The 12-bit address field nnn. -/
abbrev Addr12 := BitVec 12

/-- The number of one of sixteen like things: a register, a stack slot, a key (R20, R27, R30). -/
abbrev Ix := Fin 16

end Sys2Proof
end

