-- ==== Sys2Proof/Machine/Flags.lean ====
section
/-! DEFINITION. The values VF receives as the flag output: carry, strict comparison, the bit shifted
out, collision (41_alu.md R136 to R140, R142; 43_display.md R181). -/

namespace Sys2Proof.Machine

/-- A flag as a byte: 1 or 0. -/
def flagByte (c : Bool) : Byte := if c then 1 else 0

/-- The carry of a + b: 1 when the exact sum is above 255 (R136, R142). -/
def carryFlag (a b : Byte) : Byte := flagByte (decide (a.toNat + b.toNat > 255))

/-- 1 exactly when the minuend is strictly greater than the subtrahend (R137, R139, R142). -/
def greaterFlag (minuend subtrahend : Byte) : Byte :=
  flagByte (decide (minuend.toNat > subtrahend.toNat))

/-- Bit 0 before the shift right (R138). -/
def lowBitFlag (a : Byte) : Byte := a &&& 1

/-- Bit 7 before the shift left (R140). -/
def highBitFlag (a : Byte) : Byte := (a >>> 7) &&& 1

end Sys2Proof.Machine
end

