-- ==== Sys2Proof/Syntax.lean ====
section
/-! DEFINITION. The instructions of CORE as syntax: one constructor per row of the opcode map, in
its order, with the operand fields the row names (30_encoding.md R86, R87). -/

namespace Sys2Proof

/-- One constructor per row of 30_encoding.md R86. Register fields, and the row count n, are numbers
0..15 (R83, R84); kk is a byte and nnn a 12-bit address. SHR and SHL carry x only (R89). -/
inductive Instr where
  /-- 00E0 CLS -/
  | cls
  /-- 00EE RET -/
  | ret
  /-- 1nnn JP nnn -/
  | jp (nnn : Addr12)
  /-- 2nnn CALL nnn -/
  | call (nnn : Addr12)
  /-- 3xkk SE Vx,kk -/
  | seImm (x : Ix) (kk : Byte)
  /-- 4xkk SNE Vx,kk -/
  | sneImm (x : Ix) (kk : Byte)
  /-- 5xy0 SE Vx,Vy -/
  | seReg (x y : Ix)
  /-- 9xy0 SNE Vx,Vy -/
  | sneReg (x y : Ix)
  /-- 6xkk LD Vx,kk -/
  | ldImm (x : Ix) (kk : Byte)
  /-- 7xkk ADD Vx,kk -/
  | addImm (x : Ix) (kk : Byte)
  /-- 8xy0 LD Vx,Vy -/
  | ldReg (x y : Ix)
  /-- 8xy1 OR Vx,Vy -/
  | or (x y : Ix)
  /-- 8xy2 AND Vx,Vy -/
  | and (x y : Ix)
  /-- 8xy3 XOR Vx,Vy -/
  | xor (x y : Ix)
  /-- 8xy4 ADD Vx,Vy -/
  | addReg (x y : Ix)
  /-- 8xy5 SUB Vx,Vy -/
  | sub (x y : Ix)
  /-- 8xy6 SHR Vx -/
  | shr (x : Ix)
  /-- 8xy7 SUBN Vx,Vy -/
  | subn (x y : Ix)
  /-- 8xyE SHL Vx -/
  | shl (x : Ix)
  /-- Annn LD I,nnn -/
  | ldI (nnn : Addr12)
  /-- Bnnn JP V0,nnn -/
  | jpV0 (nnn : Addr12)
  /-- Cxkk RND Vx,kk -/
  | rnd (x : Ix) (kk : Byte)
  /-- Dxyn DRW Vx,Vy,n -/
  | drw (x y n : Ix)
  /-- Ex9E SKP Vx -/
  | skp (x : Ix)
  /-- ExA1 SKNP Vx -/
  | sknp (x : Ix)
  /-- Fx07 LD Vx,DT -/
  | ldVxDt (x : Ix)
  /-- Fx0A LD Vx,K -/
  | ldVxK (x : Ix)
  /-- Fx15 LD DT,Vx -/
  | ldDtVx (x : Ix)
  /-- Fx18 LD ST,Vx -/
  | ldStVx (x : Ix)
  /-- Fx29 LD F,Vx -/
  | ldFVx (x : Ix)
  /-- Fx33 LD B,Vx -/
  | ldBVx (x : Ix)
  /-- Fx55 LD [I],Vx -/
  | ldMemVx (x : Ix)
  /-- Fx65 LD Vx,[I] -/
  | ldVxMem (x : Ix)
  /-- Fx1E ADD I,Vx, an instruction only when P_ADD_I (R95) -/
  | addIVx (x : Ix)
deriving DecidableEq, Repr

end Sys2Proof
end

