-- ==== Sys2Proof/WellFormed.lean ====
section
/-! DEFINITION. Which instructions a machine has. Every operand value is legal (30_encoding.md R83,
R93) and the operand types admit no other, so the one check is R95: ADD I,Vx is an instruction only
when the parameter P_ADD_I is true. -/

namespace Sys2Proof

/-- Whether `i` is an instruction of the machine whose parameter P_ADD_I is `addI` (R80, R95). -/
def Instr.wellFormed (addI : Bool) : Instr → Bool
  | .addIVx _ => addI
  | .cls | .ret | .jp _ | .call _ | .seImm _ _ | .sneImm _ _ | .seReg _ _ | .sneReg _ _ => true
  | .ldImm _ _ | .addImm _ _ | .ldReg _ _ | .or _ _ | .and _ _ | .xor _ _ | .addReg _ _ => true
  | .sub _ _ | .shr _ | .subn _ _ | .shl _ | .ldI _ | .jpV0 _ | .rnd _ _ | .drw _ _ _ => true
  | .skp _ | .sknp _ | .ldVxDt _ | .ldVxK _ | .ldDtVx _ | .ldStVx _ | .ldFVx _ => true
  | .ldBVx _ | .ldMemVx _ | .ldVxMem _ => true

end Sys2Proof
end

