-- ==== Sys2Proof/Decode.lean ====
section
/-! DEFINITION. The fields of a word (30_encoding.md R82), the decoder (R88), the encoder and the
opcode map (R86). The fixed nibbles are the standard CHIP-8 ones, PRESUMED by the spec, log entry 3. -/

namespace Sys2Proof

/-- op, w[15:12], the leading nibble (R82). -/
def opField (w : Word) : BitVec 4 := w.extractLsb' 12 4

/-- x, w[11:8] (R82). -/
def xField (w : Word) : Ix := (w.extractLsb' 8 4).toFin

/-- y, w[7:4] (R82). -/
def yField (w : Word) : Ix := (w.extractLsb' 4 4).toFin

/-- n, w[3:0] (R82). -/
def nField (w : Word) : Ix := (w.extractLsb' 0 4).toFin

/-- kk, w[7:0] (R82). -/
def kkField (w : Word) : Byte := w.extractLsb' 0 8

/-- nnn, w[11:0] (R82). -/
def nnnField (w : Word) : Addr12 := w.extractLsb' 0 12

/-- What the decoder answers: an instruction, or Unknown(w) by name (R87). -/
inductive Decoded where
  | instr (i : Instr)
  /-- No opcode pattern matches the word: UnknownInstruction (R87, R91). -/
  | unknown (w : Word)
deriving DecidableEq, Repr

/-- Class 0: only the exact words 00E0 and 00EE (R88, R92; log entry 28). -/
def decodeClass0 (w : Word) : Decoded :=
  if w = 0x00E0#16 then .instr .cls
  else if w = 0x00EE#16 then .instr .ret
  else .unknown w

/-- Class 8, by the sub-opcode n (R88). SHR and SHL ignore y (R89). -/
def decodeClass8 (w : Word) : Decoded :=
  match (nField w).val with
  | 0x0 => .instr (.ldReg (xField w) (yField w))
  | 0x1 => .instr (.or (xField w) (yField w))
  | 0x2 => .instr (.and (xField w) (yField w))
  | 0x3 => .instr (.xor (xField w) (yField w))
  | 0x4 => .instr (.addReg (xField w) (yField w))
  | 0x5 => .instr (.sub (xField w) (yField w))
  | 0x6 => .instr (.shr (xField w))
  | 0x7 => .instr (.subn (xField w) (yField w))
  | 0xE => .instr (.shl (xField w))
  | _ => .unknown w

/-- Class E, by the function byte kk (R88). -/
def decodeClassE (w : Word) : Decoded :=
  match (kkField w).toNat with
  | 0x9E => .instr (.skp (xField w))
  | 0xA1 => .instr (.sknp (xField w))
  | _ => .unknown w

/-- Class F, by the function byte kk (R88). Fx1E only when P_ADD_I (R95). -/
def decodeClassF (addI : Bool) (w : Word) : Decoded :=
  match (kkField w).toNat with
  | 0x07 => .instr (.ldVxDt (xField w))
  | 0x0A => .instr (.ldVxK (xField w))
  | 0x15 => .instr (.ldDtVx (xField w))
  | 0x18 => .instr (.ldStVx (xField w))
  | 0x1E => if addI then .instr (.addIVx (xField w)) else .unknown w
  | 0x29 => .instr (.ldFVx (xField w))
  | 0x33 => .instr (.ldBVx (xField w))
  | 0x55 => .instr (.ldMemVx (xField w))
  | 0x65 => .instr (.ldVxMem (xField w))
  | _ => .unknown w

/-- The decoding function of R88: total, reading only the word and P_ADD_I (R87). -/
def decode (addI : Bool) (w : Word) : Decoded :=
  match (opField w).toNat with
  | 0x0 => decodeClass0 w
  | 0x1 => .instr (.jp (nnnField w))
  | 0x2 => .instr (.call (nnnField w))
  | 0x3 => .instr (.seImm (xField w) (kkField w))
  | 0x4 => .instr (.sneImm (xField w) (kkField w))
  | 0x5 => if nField w = 0 then .instr (.seReg (xField w) (yField w)) else .unknown w
  | 0x6 => .instr (.ldImm (xField w) (kkField w))
  | 0x7 => .instr (.addImm (xField w) (kkField w))
  | 0x8 => decodeClass8 w
  | 0x9 => if nField w = 0 then .instr (.sneReg (xField w) (yField w)) else .unknown w
  | 0xA => .instr (.ldI (nnnField w))
  | 0xB => .instr (.jpV0 (nnnField w))
  | 0xC => .instr (.rnd (xField w) (kkField w))
  | 0xD => .instr (.drw (xField w) (yField w) (nField w))
  | 0xE => decodeClassE w
  | 0xF => decodeClassF addI w
  | _ => .unknown w

/-- The word of two consecutive bytes, high byte first (R81, 20_memory.md R54, R55). -/
def wordOfBytes (hi lo : Byte) : Word := hi ++ lo

/-- Decoding the two bytes of an instruction, as memory stores them (R81). -/
def decodeBytes (addI : Bool) (hi lo : Byte) : Decoded := decode addI (wordOfBytes hi lo)

/-- The high byte of a word, stored at the lower address (20_memory.md R55). -/
def hiByte (w : Word) : Byte := w.extractLsb' 8 8

/-- The low byte of a word, stored at the higher address (20_memory.md R55). -/
def loByte (w : Word) : Byte := w.extractLsb' 0 8

/-- Format nnn: op(4) nnn(12) (R85). -/
def encNnn (op : BitVec 4) (nnn : Addr12) : Word := op ++ nnn

/-- Formats xkk and xfn: op(4) x(4) kk(8) (R85). -/
def encXkk (op : BitVec 4) (x : Ix) (kk : Byte) : Word := (op ++ BitVec.ofFin (w := 4) x) ++ kk

/-- Format xyn: op(4) x(4) y(4) n(4) (R85). -/
def encXyn (op : BitVec 4) (x y n : Ix) : Word :=
  ((op ++ BitVec.ofFin (w := 4) x) ++ BitVec.ofFin (w := 4) y) ++ BitVec.ofFin (w := 4) n

/-- The encoder, from the patterns of R86. SHR and SHL are written with y = 0 (R89). -/
def encode : Instr → Word
  | .cls => 0x00E0#16
  | .ret => 0x00EE#16
  | .jp nnn => encNnn 0x1 nnn
  | .call nnn => encNnn 0x2 nnn
  | .seImm x kk => encXkk 0x3 x kk
  | .sneImm x kk => encXkk 0x4 x kk
  | .seReg x y => encXyn 0x5 x y 0x0
  | .sneReg x y => encXyn 0x9 x y 0x0
  | .ldImm x kk => encXkk 0x6 x kk
  | .addImm x kk => encXkk 0x7 x kk
  | .ldReg x y => encXyn 0x8 x y 0x0
  | .or x y => encXyn 0x8 x y 0x1
  | .and x y => encXyn 0x8 x y 0x2
  | .xor x y => encXyn 0x8 x y 0x3
  | .addReg x y => encXyn 0x8 x y 0x4
  | .sub x y => encXyn 0x8 x y 0x5
  | .shr x => encXyn 0x8 x 0x0 0x6
  | .subn x y => encXyn 0x8 x y 0x7
  | .shl x => encXyn 0x8 x 0x0 0xE
  | .ldI nnn => encNnn 0xA nnn
  | .jpV0 nnn => encNnn 0xB nnn
  | .rnd x kk => encXkk 0xC x kk
  | .drw x y n => encXyn 0xD x y n
  | .skp x => encXkk 0xE x 0x9E
  | .sknp x => encXkk 0xE x 0xA1
  | .ldVxDt x => encXkk 0xF x 0x07
  | .ldVxK x => encXkk 0xF x 0x0A
  | .ldDtVx x => encXkk 0xF x 0x15
  | .ldStVx x => encXkk 0xF x 0x18
  | .ldFVx x => encXkk 0xF x 0x29
  | .ldBVx x => encXkk 0xF x 0x33
  | .ldMemVx x => encXkk 0xF x 0x55
  | .ldVxMem x => encXkk 0xF x 0x65
  | .addIVx x => encXkk 0xF x 0x1E

/-- A row of the opcode map: a word w is of the row when w & mask = pattern (R86). -/
structure OpRow where
  mask : Word
  pattern : Word
deriving DecidableEq, Repr

/-- The mask and match columns of R86, rows 1 to 17. -/
def opcodeMapLow : List OpRow :=
  [⟨0xFFFF, 0x00E0⟩, ⟨0xFFFF, 0x00EE⟩, ⟨0xF000, 0x1000⟩, ⟨0xF000, 0x2000⟩, ⟨0xF000, 0x3000⟩,
   ⟨0xF000, 0x4000⟩, ⟨0xF00F, 0x5000⟩, ⟨0xF00F, 0x9000⟩, ⟨0xF000, 0x6000⟩, ⟨0xF000, 0x7000⟩,
   ⟨0xF00F, 0x8000⟩, ⟨0xF00F, 0x8001⟩, ⟨0xF00F, 0x8002⟩, ⟨0xF00F, 0x8003⟩, ⟨0xF00F, 0x8004⟩,
   ⟨0xF00F, 0x8005⟩, ⟨0xF00F, 0x8006⟩]

/-- The mask and match columns of R86, rows 18 to 34. -/
def opcodeMapHigh : List OpRow :=
  [⟨0xF00F, 0x8007⟩, ⟨0xF00F, 0x800E⟩, ⟨0xF000, 0xA000⟩, ⟨0xF000, 0xB000⟩, ⟨0xF000, 0xC000⟩,
   ⟨0xF000, 0xD000⟩, ⟨0xF0FF, 0xE09E⟩, ⟨0xF0FF, 0xE0A1⟩, ⟨0xF0FF, 0xF007⟩, ⟨0xF0FF, 0xF00A⟩,
   ⟨0xF0FF, 0xF015⟩, ⟨0xF0FF, 0xF018⟩, ⟨0xF0FF, 0xF029⟩, ⟨0xF0FF, 0xF033⟩, ⟨0xF0FF, 0xF055⟩,
   ⟨0xF0FF, 0xF065⟩, ⟨0xF0FF, 0xF01E⟩]

/-- The opcode map of R86: its mask and match columns in the order of its rows. -/
def opcodeMap : List OpRow := opcodeMapLow ++ opcodeMapHigh

/-- An instruction's row in the opcode map, counted from 0 (the # column of R86 less one). -/
def Instr.rowNo : Instr → Nat
  | .cls => 0 | .ret => 1 | .jp _ => 2 | .call _ => 3 | .seImm _ _ => 4 | .sneImm _ _ => 5
  | .seReg _ _ => 6 | .sneReg _ _ => 7 | .ldImm _ _ => 8 | .addImm _ _ => 9 | .ldReg _ _ => 10
  | .or _ _ => 11 | .and _ _ => 12 | .xor _ _ => 13 | .addReg _ _ => 14 | .sub _ _ => 15
  | .shr _ => 16 | .subn _ _ => 17 | .shl _ => 18 | .ldI _ => 19 | .jpV0 _ => 20 | .rnd _ _ => 21
  | .drw _ _ _ => 22 | .skp _ => 23 | .sknp _ => 24 | .ldVxDt _ => 25 | .ldVxK _ => 26
  | .ldDtVx _ => 27 | .ldStVx _ => 28 | .ldFVx _ => 29 | .ldBVx _ => 30 | .ldMemVx _ => 31
  | .ldVxMem _ => 32 | .addIVx _ => 33

/-- The instruction the decoder reads from a row's word, its bits numbered as the opcode table
numbers them. Every row of the table is asked about, so P_ADD_I is true here (log entry 2). The
word's two bytes are laid out high byte first and given to the decoder. -/
def decodeTableWord (nbits w : Nat) : Option Instr :=
  if nbits ≤ 16 then
    let word : Word := BitVec.ofNat 16 (w % 2 ^ nbits)
    match decodeBytes true (hiByte word) (loByte word) with
    | .instr i => some i
    | .unknown _ => none
  else none

end Sys2Proof
end

