-- ==== Sys2Proof/Config.lean ====
section
/-! DEFINITION. What an implementation fixes: the architectural constants (00_scope.md R7), the
parameters a model takes as arguments (R8), and the free values (R8), which have no body. -/

namespace Sys2Proof

/-- MEM_SIZE, the number of bytes of memory (R7). -/
def Config.memSize : Nat := 4096

/-- The highest address, 0xFFF (R7, 20_memory.md R50). -/
def Config.lastAddr : Nat := 0xFFF

/-- The last address of the font region 0x000..0x04F (R7, 20_memory.md R59). -/
def Config.fontLast : Nat := 0x04F

/-- PROG_BASE, where programs load and pc starts (R7). -/
def Config.progBase : Nat := 0x200

/-- ROM_MAX, 4096 - 0x200 bytes (R7). -/
def Config.romMax : Nat := 3584

/-- P_FONT_WRITE: what a write into the font region does (R8, 20_memory.md R59). -/
inductive FontWrite where
  /-- The byte is written. -/
  | store
  /-- The byte is silently not written. -/
  | discard
  /-- The model stops in Refused(FontRegionWrite). -/
  | refuse
deriving DecidableEq, Repr

/-- The parameters of the model (R8). They are fixed for one machine; no cycle and no host action
changes them. -/
structure Params where
  /-- FONT, the 80 bytes copied to 0x000..0x04F at reset (20_memory.md R57). -/
  font : Vector Byte 80
  /-- P_ADD_I: whether the words Fx1E are ADD I,Vx (30_encoding.md R95). -/
  addI : Bool
  /-- P_FONT_WRITE. -/
  fontWrite : FontWrite
deriving DecidableEq, Repr

/-- Glyphs 0 to 7 of the default FONT (20_memory.md R57). PRESUMED, log entry 4. -/
def Config.fontLow : List Byte :=
  [0xF0, 0x90, 0x90, 0x90, 0xF0] ++ [0x20, 0x60, 0x20, 0x20, 0x70] ++
  [0xF0, 0x10, 0xF0, 0x80, 0xF0] ++ [0xF0, 0x10, 0xF0, 0x10, 0xF0] ++
  [0x90, 0x90, 0xF0, 0x10, 0x10] ++ [0xF0, 0x80, 0xF0, 0x10, 0xF0] ++
  [0xF0, 0x80, 0xF0, 0x90, 0xF0] ++ [0xF0, 0x10, 0x20, 0x40, 0x40]

/-- Glyphs 8 to F of the default FONT (20_memory.md R57). PRESUMED, log entry 4. -/
def Config.fontHigh : List Byte :=
  [0xF0, 0x90, 0xF0, 0x90, 0xF0] ++ [0xF0, 0x90, 0xF0, 0x10, 0xF0] ++
  [0xF0, 0x90, 0xF0, 0x90, 0x90] ++ [0xE0, 0x90, 0xE0, 0x90, 0xE0] ++
  [0xF0, 0x80, 0x80, 0x80, 0xF0] ++ [0xE0, 0x90, 0x90, 0x90, 0xE0] ++
  [0xF0, 0x80, 0xF0, 0x80, 0xF0] ++ [0xF0, 0x80, 0xF0, 0x80, 0x80]

/-- The default FONT, the standard CHIP-8 hex font (20_memory.md R57). -/
def Config.standardFont : Vector Byte 80 :=
  ⟨(Config.fontLow ++ Config.fontHigh).toArray, by decide⟩

/-- The defaults of 00_scope.md R8. -/
def Config.standard : Params :=
  { font := Config.standardFont, addI := false, fontWrite := .refuse }

/-- FREE VALUE: the byte the n-th draw gives RND (00_scope.md R8, 92_eei_decisions.md D13). Nothing
constrains it. DESIGN CHOICE of form, log entry 8. -/
opaque Config.freeByte : Nat → Byte

/-- FREE VALUE: which of several pressed keys the n-th draw gives LD Vx,K (D12). Log entry 9. -/
opaque Config.freeKey : Nat → Nat

/-- FREE VALUE: whether CLS sets the dirty flag, at the n-th draw (D14). Log entry 10. -/
opaque Config.freeDirty : Nat → Bool

end Sys2Proof
end

