-- ==== Sys2Proof/Machine/State.lean ====
section
/-! DEFINITION. The state of CORE (10_state.md R20 to R37, 20_memory.md R50), the errors and refusals
a cycle can raise (60_exceptions.md R210 to R216), and the state after reset (10_state.md R37). -/

namespace Sys2Proof.Machine

/-- A fatal error with its payload (60_exceptions.md R210, R211). -/
inductive FatalError where
  /-- CALL when sp is 15; the pc of the CALL. -/
  | stackOverflow (pc : Word)
  /-- RET when sp is 0; the pc of the RET. -/
  | stackUnderflow (pc : Word)
  /-- An access outside 0..0xFFF; the lowest such address. -/
  | outOfBoundsAddress (addr : Nat)
  /-- A ROM longer than 3584 bytes; its length. -/
  | romTooLarge (len : Nat)
deriving DecidableEq, Repr

/-- The reasons of the spec's model-only refusal, with their payload (60_exceptions.md R216). -/
inductive Unspecified where
  /-- SKP or SKNP with Vx above 0xF; the value (44_timers_keypad.md R190). -/
  | keyIndexOutOfRange (a : Byte)
  /-- A write to 0x000..0x04F when P_FONT_WRITE is Refuse; the address (20_memory.md R59). -/
  | fontRegionWrite (addr : Nat)
deriving DecidableEq, Repr

/-- What a cycle's pseudocode can raise (00_scope.md R12). -/
inductive Raise where
  | fatal (e : FatalError)
  | refuse (r : Unspecified)
deriving DecidableEq, Repr

/-- The engine's status (10_state.md R33). -/
inductive Run where
  | running
  | halted (e : FatalError)
  | refused (r : Unspecified)
deriving DecidableEq, Repr

/-- One non-fatal report Unknown(pc, w) on the host's stream (60_exceptions.md R211, R214). -/
structure Report where
  pc : Word
  word : Word
deriving DecidableEq, Repr

/-- Memory as a list of listed bytes, addresses strictly rising; an address it does not list reads
as its reset contents (log entry 25). -/
abbrev Memory := List Host.Cell

/-- The framebuffer: 32 rows of 64 one-bit pixels, bit c of row r being the spec's fb[c + r*64]
(10_state.md R31; log entry 24). -/
abbrev Framebuffer := Vector (BitVec 64) 32

/-- Every piece of state the spec gives CORE (10_state.md R20 to R33, 20_memory.md R50). The last
three fields are the model's own: the parameters of 00_scope.md R8 (log entry 1), the report stream of
10_state.md R35 (log entry 11) and the count of free values drawn (log entry 8). -/
structure State where
  /-- mem[0x000..0xFFF] (20_memory.md R50). -/
  mem : Memory
  /-- V0..VF (R20). -/
  V : Vector Byte 16
  /-- The index register (R23). -/
  I : Word
  /-- The program counter (R24). -/
  pc : Word
  /-- The stack pointer, the number of return addresses held (R27). -/
  sp : Ix
  /-- stack[0..15] (R27). -/
  stack : Vector Word 16
  /-- The delay timer (R28). -/
  DT : Byte
  /-- The sound timer (R29). -/
  ST : Byte
  /-- The key latch, true is pressed (R30). -/
  keys : Vector Bool 16
  /-- The framebuffer (R31). -/
  fb : Framebuffer
  /-- The redraw-dirty flag (R32). -/
  dirty : Bool
  /-- The engine's status (R33). -/
  run : Run
  /-- The model's parameters. -/
  params : Params
  /-- The reports emitted so far, oldest first. -/
  reports : List Report
  /-- How many free values have been drawn. -/
  draws : Nat
deriving DecidableEq, Repr

/-- Reasons the machine stops outside its state: none. Every error of the spec is an effect on run
(60_exceptions.md R212, R216), so a step never answers with a fault (log entry 6). Safe. -/
inductive Fault where
deriving DecidableEq, Repr

/-- Reasons the model has no meaning for an instruction. -/
inductive Refusal where
  /-- An arm of exec without a meaning. Every row of the opcode table has one, so no arm raises it.
  Safe. -/
  | notModelled (mnemonic : String)
deriving DecidableEq, Repr

/-- What a step or a meaning answers. -/
abbrev Outcome := Host.Outcome State Fault Refusal

/-- The table of 10_state.md R37, for a machine with the given parameters; the report stream and the
count of draws are handed on, since reset does not touch them (R35). Memory with nothing listed reads as
FONT at 0x000..0x04F and as 0x00 elsewhere. -/
def State.afterReset (params : Params) (reports : List Report) (draws : Nat) : State :=
  { mem := []
    V := Vector.replicate 16 0x00
    I := 0x0000
    pc := 0x200
    sp := 0
    stack := Vector.replicate 16 0x0000
    DT := 0
    ST := 0
    keys := Vector.replicate 16 false
    fb := Vector.replicate 32 0
    dirty := false
    run := .running
    params := params
    reports := reports
    draws := draws }

/-- The machine right after reset, with the default parameters of 00_scope.md R8. -/
def State.reset : State := State.afterReset Config.standard [] 0

end Sys2Proof.Machine
end

