-- ==== Sys2Proof/Machine/Ops.lean ====
section
/-! DEFINITION. The named operations over memory, registers, the stack and the framebuffer; raising an
error, the one exception mechanism of CORE (60_exceptions.md R212, R216, R220); and the transaction rule
(00_scope.md R13). -/

namespace Sys2Proof.Machine

/-! ### Memory -/

/-- What an address reads as when memory does not list it: its contents after reset, FONT in the font
region and 0x00 elsewhere (20_memory.md R56; 10_state.md R37). -/
def unlisted (font : Vector Byte 80) (a : Nat) : Byte :=
  if h : a < 80 then font[a] else 0x00

/-- The byte at an address, without the bounds check. -/
def peek (font : Vector Byte 80) (a : Nat) : Memory → Byte
  | [] => unlisted font a
  | (b, v) :: rest => if b = a then v else peek font a rest

/-- Lists a byte at its place in the rising order, replacing one at the same address. -/
def listByte (a : Nat) (v : Byte) : Memory → Memory
  | [] => [(a, v)]
  | (b, w) :: rest =>
    if a < b then (a, v) :: (b, w) :: rest
    else if a = b then (a, v) :: rest
    else (b, w) :: listByte a v rest

/-- Stores a byte, without the checks. A byte equal to what an unlisted address reads as is taken off
the list, so that equal memories are equal lists. -/
def poke (font : Vector Byte 80) (a : Nat) (v : Byte) (m : Memory) : Memory :=
  if v = unlisted font a then m.filter (fun c => c.1 ≠ a) else listByte a v m

/-- Stores bytes at consecutive addresses, without the checks. -/
def pokeAll (font : Vector Byte 80) (a : Nat) : List Byte → Memory → Memory
  | [], m => m
  | v :: vs, m => pokeAll font (a + 1) vs (poke font a v m)

/-- The canonical form of memory: addresses strictly rising and inside the address space, and no entry
equal to what an unlisted address reads as. -/
def memoryWf (font : Vector Byte 80) (m : Memory) : Bool :=
  decide (m.Pairwise (fun c d => c.1 < d.1)) &&
  m.all (fun c => decide (c.1 < Config.memSize) && decide (c.2 ≠ unlisted font c.1))

/-- The model's read of one byte of a state's memory. -/
def State.byteAt (s : State) (a : Nat) : Byte := peek s.params.font a s.mem

/-- MemRead(a, 1) (20_memory.md R52). -/
def memRead (font : Vector Byte 80) (m : Memory) (a : Nat) : Except Raise Byte :=
  if a > Config.lastAddr then .error (.fatal (.outOfBoundsAddress a))
  else .ok (peek font a m)

/-- MemWrite(a, 1, v) (20_memory.md R53). -/
def memWrite (p : Params) (a : Nat) (v : Byte) (m : Memory) : Except Raise Memory :=
  if a > Config.lastAddr then .error (.fatal (.outOfBoundsAddress a))
  else if a ≤ Config.fontLast then
    match p.fontWrite with
    | .store => .ok (poke p.font a v m)
    | .discard => .ok m
    | .refuse => .error (.refuse (.fontRegionWrite a))
  else .ok (poke p.font a v m)

/-- MemRead of `count` consecutive bytes, in increasing address order (R61, 60_exceptions.md R217). -/
def loadBytes (font : Vector Byte 80) (m : Memory) (a : Nat) : Nat → Except Raise (List Byte)
  | 0 => .ok []
  | count + 1 =>
    match memRead font m a with
    | .error e => .error e
    | .ok v =>
      match loadBytes font m (a + 1) count with
      | .error e => .error e
      | .ok vs => .ok (v :: vs)

/-- MemWrite of consecutive bytes, in increasing address order; a raise discards them all (R61, R62). -/
def storeBytes (p : Params) (a : Nat) : List Byte → Memory → Except Raise Memory
  | [], m => .ok m
  | v :: vs, m =>
    match memWrite p a v m with
    | .error e => .error e
    | .ok m' => storeBytes p (a + 1) vs m'

/-- Fetch(pc): the big-endian word at pc, both bytes checked (20_memory.md R54). -/
def fetch (s : State) : Except Raise Word :=
  match loadBytes s.params.font s.mem s.pc.toNat 2 with
  | .error e => .error e
  | .ok bytes => .ok (wordOfBytes (bytes.getD 0 0) (bytes.getD 1 0))

/-! ### Registers -/

/-- V[x] (10_state.md R20). -/
def State.readV (s : State) (x : Ix) : Byte := s.V[x]

/-- V[x] <- v (R20). -/
def State.writeV (s : State) (x : Ix) (v : Byte) : State := { s with V := s.V.set x v }

/-- VF <- v, the flag output (R21). -/
def State.writeFlag (s : State) (v : Byte) : State := s.writeV 0xF v

/-- I <- v (R23). -/
def State.setI (s : State) (v : Word) : State := { s with I := v }

/-- The memory of a completed store (20_memory.md R62). -/
def State.setMem (s : State) (m : Memory) : State := { s with mem := m }

/-- DT <- v (R28). -/
def State.setDT (s : State) (v : Byte) : State := { s with DT := v }

/-- ST <- v (R29). -/
def State.setST (s : State) (v : Byte) : State := { s with ST := v }

/-- The framebuffer of a completed draw or clear (R31). -/
def State.setFb (s : State) (fb : Framebuffer) : State := { s with fb := fb }

/-- dirty <- d (R32). -/
def State.setDirty (s : State) (d : Bool) : State := { s with dirty := d }

/-- pc <- target (R24, 40_control.md R101). -/
def State.setPc (s : State) (target : Word) : State := { s with pc := target }

/-- pc <- pc + 2, the advance of a handler with no control-flow effect (40_control.md R101). -/
def State.advance (s : State) : State := s.setPc (s.pc + 2)

/-- The pc update of a skip: pc + 4 when the condition holds, else pc + 2 (40_control.md R115). -/
def State.skipIf (s : State) (taken : Bool) : State := s.setPc (if taken then s.pc + 4 else s.pc + 2)

/-- V[k] <- byte k, for as many registers as there are bytes (42_index_memory.md R164). -/
def State.loadRegs (s : State) (bytes : List Byte) : State :=
  { s with V := Vector.ofFn fun k : Ix => bytes.getD k.val s.V[k] }

/-- V0..Vx, inclusive (42_index_memory.md R163). -/
def State.regsUpTo (s : State) (x : Ix) : List Byte := s.V.toList.take (x.val + 1)

/-- Counts one free value drawn (log entry 8). -/
def State.countDraw (s : State) : State := { s with draws := s.draws + 1 }

/-! ### Raising an error, and the transaction rule -/

/-- What a raise makes of run: Halted(e) for a fatal error (60_exceptions.md R212), Refused(r) for a
refusal (R216). -/
def Raise.status : Raise → Run
  | .fatal e => .halted e
  | .refuse r => .refused r

/-- Taking an error, the machine's only exception: run records it with its payload, pc keeps the address
of the instruction that raised it, and nothing else changes (60_exceptions.md R212, R216, R218). There is
no vector, saved register or return from it (R220); Reset leaves it (R213). -/
def State.raise (s : State) (e : Raise) : State := { s with run := e.status }

/-- The transaction rule: a raise discards every write of the cycle, otherwise the writes are applied
(00_scope.md R13; log entry 14). -/
def transact {α : Type} (checked : Except Raise α) (writes : α → State) (s : State) : Outcome :=
  match checked with
  | .error e => .next (s.raise e)
  | .ok a => .next (writes a)

/-- The effect of a cycle that fetched Unknown(w): the report, and pc + 2 (60_exceptions.md R214). -/
def State.reportUnknown (s : State) (w : Word) : State :=
  { s with reports := s.reports ++ [⟨s.pc, w⟩], pc := s.pc + 2 }

/-! ### The call stack -/

/-- stack[sp] <- pc + 2; sp <- sp + 1, or StackOverflow(pc) when sp is 15 (40_control.md R105, R106). -/
def State.pushReturn (s : State) : Except Raise State :=
  if s.sp = 15 then .error (.fatal (.stackOverflow s.pc))
  else .ok { s with stack := s.stack.set s.sp (s.pc + 2), sp := s.sp + 1 }

/-- sp <- sp - 1; pc <- stack[sp], or StackUnderflow(pc) when sp is 0 (40_control.md R107, R108). -/
def State.popReturn (s : State) : Except Raise State :=
  if s.sp = 0 then .error (.fatal (.stackUnderflow s.pc))
  else .ok { s with sp := s.sp - 1, pc := s.stack[s.sp - 1] }

/-! ### The framebuffer -/

/-- The pixel at column c and row r, the spec's fb[c + r*64] (10_state.md R31). -/
def pixelAt (fb : Framebuffer) (c : Fin 64) (r : Fin 32) : Bool := fb[r].getLsbD c.val

/-- Toggles one pixel by XOR (43_display.md R181). -/
def togglePixel (fb : Framebuffer) (c : Fin 64) (r : Fin 32) : Framebuffer :=
  fb.set r (fb[r] ^^^ BitVec.twoPow 64 c.val)

/-- Every pixel off (43_display.md R180). -/
def clearedScreen : Framebuffer := Vector.replicate 32 0

/-- A draw in progress: the framebuffer so far and whether a lit pixel was erased. -/
structure Drawing where
  fb : Framebuffer
  collision : Bool
deriving DecidableEq, Repr

/-- The screen column of sprite column col drawn from a, (a + col) mod 64 (43_display.md R183). -/
def screenCol (a : Byte) (col : Nat) : Fin 64 := Fin.ofNat 64 (a.toNat + col)

/-- The screen row of sprite row `row` drawn from b, (b + row) mod 32 (43_display.md R183). -/
def screenRow (b : Byte) (row : Nat) : Fin 32 := Fin.ofNat 32 (b.toNat + row)

/-- One set sprite bit: note a collision if its pixel is lit, then toggle it (43_display.md R181). -/
def drawPixel (c : Fin 64) (r : Fin 32) (d : Drawing) : Drawing :=
  { fb := togglePixel d.fb c r, collision := d.collision || pixelAt d.fb c r }

/-- One column of a sprite row: bit 7 - col of the row byte (43_display.md R181, R182). -/
def drawCol (a : Byte) (r : Fin 32) (bits : Byte) (d : Drawing) (col : Nat) : Drawing :=
  if bits.getLsbD (7 - col) then drawPixel (screenCol a col) r d else d

/-- One sprite row: columns 0 to 7 in order (43_display.md R181). -/
def drawRow (a : Byte) (r : Fin 32) (bits : Byte) (d : Drawing) : Drawing :=
  (List.range 8).foldl (drawCol a r bits) d

/-- The rows of a sprite, from row number `row` on (43_display.md R181). -/
def drawRows (a b : Byte) : Nat → List Byte → Drawing → Drawing
  | _, [], d => d
  | row, bits :: rest, d => drawRows a b (row + 1) rest (drawRow a (screenRow b row) bits d)

/-- The whole draw at (a, b), with collision false before the loop (43_display.md R181). -/
def drawSprite (a b : Byte) (sprite : List Byte) (fb : Framebuffer) : Drawing :=
  drawRows a b 0 sprite { fb := fb, collision := false }

/-! ### The key latch -/

/-- P, the pressed keys in increasing order (44_timers_keypad.md R196). -/
def pressedKeys (keys : Vector Bool 16) : List Ix := (List.finRange 16).filter fun k => keys[k]

/-- choose k in P: none from no key, the key from one, and from several the one a free value picks
(44_timers_keypad.md R196; log entry 9). -/
def chooseKey : List Ix → Nat → Option Ix
  | [], _ => none
  | [k], _ => some k
  | k :: k' :: ks, free => (k :: k' :: ks)[free % (ks.length + 2)]?

end Sys2Proof.Machine
end

