-- ==== Sys2Proof/Machine/Operands.lean ====
section
/-! DEFINITION. The operand forms: immediates (30_encoding.md R84), the one data addressing mode
(42_index_memory.md R166), and the values instructions compute from Vx (R161, R162; 44_timers_keypad.md
R190). -/

namespace Sys2Proof.Machine

/-- zext_16(nnn) (30_encoding.md R84). -/
def addrOf (nnn : Addr12) : Word := nnn.setWidth 16

/-- zext_16(nnn) + V0, at most 0x10FE, so without a wrap (40_control.md R110). -/
def jumpOffset (nnn : Addr12) (v0 : Byte) : Word := addrOf nnn + v0.setWidth 16

/-- The address of the first data byte, I as an unbounded number (20_memory.md R68, R69). -/
def State.dataAddr (s : State) : Nat := s.I.toNat

/-- Vx * 5, the address of glyph Vx; at most 1275 (42_index_memory.md R161; log entry 17). -/
def glyphAddr (a : Byte) : Word := a.setWidth 16 * 5

/-- (I + Vx) mod 65536 (42_index_memory.md R165; log entry 30). -/
def indexPlus (i : Word) (a : Byte) : Word := i + a.setWidth 16

/-- The hundreds, tens and ones digits of a byte (42_index_memory.md R162). -/
def bcdDigits (a : Byte) : List Byte := [a / 100, a / 10 % 10, a % 10]

/-- The key a byte names, or Refuse(KeyIndexOutOfRange, a) above 0xF (44_timers_keypad.md R190). -/
def keyIndex (a : Byte) : Except Raise Ix :=
  if h : a.toNat < 16 then .ok ⟨a.toNat, h⟩ else .error (.refuse (.keyIndexOutOfRange a))

end Sys2Proof.Machine
end

