-- ==== Sys2Proof/Machine/Alu.lean ====
section
/-! DEFINITION. Register loads, arithmetic and logic (41_alu.md R130 to R143). Operands are read from
the state at the start of the cycle, and VF is written before Vx, so that the Vx write is kept when x is F
(00_scope.md R13; log entry 13). -/

namespace Sys2Proof.Machine

/-- V[x] <- v; pc <- pc + 2: a handler that writes one register and no flag. -/
def State.finish (s : State) (x : Ix) (v : Byte) : State := (s.writeV x v).advance

/-- V[F] <- flag; V[x] <- v; pc <- pc + 2, in this order (R136 to R140). -/
def State.finishFlag (s : State) (flag : Byte) (x : Ix) (v : Byte) : State :=
  ((s.writeFlag flag).writeV x v).advance

/-- LD Vx,kk (R130). -/
def execLdImm (x : Ix) (kk : Byte) (s : State) : Outcome := .next (s.finish x kk)

/-- ADD Vx,kk, modulo 256, no flag (R131). -/
def execAddImm (x : Ix) (kk : Byte) (s : State) : Outcome := .next (s.finish x (s.readV x + kk))

/-- LD Vx,Vy (R132). -/
def execLdReg (x y : Ix) (s : State) : Outcome := .next (s.finish x (s.readV y))

/-- OR Vx,Vy (R133). -/
def execOr (x y : Ix) (s : State) : Outcome := .next (s.finish x (s.readV x ||| s.readV y))

/-- AND Vx,Vy (R134). -/
def execAnd (x y : Ix) (s : State) : Outcome := .next (s.finish x (s.readV x &&& s.readV y))

/-- XOR Vx,Vy (R135). -/
def execXor (x y : Ix) (s : State) : Outcome := .next (s.finish x (s.readV x ^^^ s.readV y))

/-- ADD Vx,Vy with carry out (R136). -/
def execAddReg (x y : Ix) (s : State) : Outcome :=
  .next (s.finishFlag (carryFlag (s.readV x) (s.readV y)) x (s.readV x + s.readV y))

/-- SUB Vx,Vy (R137). -/
def execSub (x y : Ix) (s : State) : Outcome :=
  .next (s.finishFlag (greaterFlag (s.readV x) (s.readV y)) x (s.readV x - s.readV y))

/-- SHR Vx, a logical shift by one (R138). -/
def execShr (x : Ix) (s : State) : Outcome :=
  .next (s.finishFlag (lowBitFlag (s.readV x)) x (s.readV x >>> 1))

/-- SUBN Vx,Vy (R139). -/
def execSubn (x y : Ix) (s : State) : Outcome :=
  .next (s.finishFlag (greaterFlag (s.readV y) (s.readV x)) x (s.readV y - s.readV x))

/-- SHL Vx, by one (R140). -/
def execShl (x : Ix) (s : State) : Outcome :=
  .next (s.finishFlag (highBitFlag (s.readV x)) x (s.readV x <<< 1))

/-- RND Vx,kk: the free byte of this draw, masked (R141; log entry 8). -/
def execRnd (x : Ix) (kk : Byte) (s : State) : Outcome :=
  .next (s.countDraw.finish x (Config.freeByte s.draws &&& kk))

end Sys2Proof.Machine
end

