-- ==== Sys2Proof/Machine/Control.lean ====
section
/-! DEFINITION. Control transfer: jumps, call, return and the compare-and-skip instructions
(40_control.md R103 to R115). -/

namespace Sys2Proof.Machine

/-- JP nnn (R103). The target is not checked (R104). -/
def execJp (nnn : Addr12) (s : State) : Outcome := .next (s.setPc (addrOf nnn))

/-- CALL nnn (R105). -/
def execCall (nnn : Addr12) (s : State) : Outcome :=
  transact s.pushReturn (fun t => t.setPc (addrOf nnn)) s

/-- RET (R107). The popped slot keeps its value. -/
def execRet (s : State) : Outcome := transact s.popReturn (fun t => t) s

/-- JP V0,nnn (R110). -/
def execJpV0 (nnn : Addr12) (s : State) : Outcome := .next (s.setPc (jumpOffset nnn (s.readV 0)))

/-- SE Vx,kk (R111). -/
def execSeImm (x : Ix) (kk : Byte) (s : State) : Outcome := .next (s.skipIf (s.readV x == kk))

/-- SNE Vx,kk (R112). -/
def execSneImm (x : Ix) (kk : Byte) (s : State) : Outcome := .next (s.skipIf (s.readV x != kk))

/-- SE Vx,Vy (R113). -/
def execSeReg (x y : Ix) (s : State) : Outcome := .next (s.skipIf (s.readV x == s.readV y))

/-- SNE Vx,Vy (R114). -/
def execSneReg (x y : Ix) (s : State) : Outcome := .next (s.skipIf (s.readV x != s.readV y))

end Sys2Proof.Machine
end

