-- ==== Sys2Proof/Machine/Display.lean ====
section
/-! DEFINITION. The framebuffer instructions (43_display.md R180 to R186). -/

namespace Sys2Proof.Machine

/-- CLS (R180). dirty is its old value or true, as a free value says (log entry 10). -/
def execCls (s : State) : Outcome :=
  .next ((s.countDraw.setFb clearedScreen).setDirty (s.dirty || Config.freeDirty s.draws)).advance

/-- The writes of a completed draw: the framebuffer, VF, dirty and pc, in the order of R181. -/
def State.finishDraw (s : State) (d : Drawing) : State :=
  (((s.setFb d.fb).writeFlag (flagByte d.collision)).setDirty true).advance

/-- DRW Vx,Vy,n (R181, R185, R186): the n row bytes are read first, then drawn at (Vx, Vy). -/
def execDrw (x y n : Ix) (s : State) : Outcome :=
  transact (loadBytes s.params.font s.mem s.dataAddr n.val)
    (fun sprite => s.finishDraw (drawSprite (s.readV x) (s.readV y) sprite s.fb)) s

end Sys2Proof.Machine
end

