-- ==== Sys2Proof/Machine/IndexMemory.lean ====
section
/-! DEFINITION. The index register and the memory transfers (42_index_memory.md R160 to R166). -/

namespace Sys2Proof.Machine

/-- LD I,nnn (R160). -/
def execLdI (nnn : Addr12) (s : State) : Outcome := .next (s.setI (addrOf nnn)).advance

/-- LD F,Vx (R161). -/
def execLdFVx (x : Ix) (s : State) : Outcome := .next (s.setI (glyphAddr (s.readV x))).advance

/-- Stores bytes from I on and advances; a raise stores none of them (20_memory.md R62). -/
def State.storeAtI (s : State) (bytes : List Byte) : Outcome :=
  transact (storeBytes s.params s.dataAddr bytes s.mem)
    (fun m => (s.setMem m).advance) s

/-- LD B,Vx (R162). -/
def execLdBVx (x : Ix) (s : State) : Outcome := s.storeAtI (bcdDigits (s.readV x))

/-- LD [I],Vx (R163). I is not changed (log entry 18). -/
def execLdMemVx (x : Ix) (s : State) : Outcome := s.storeAtI (s.regsUpTo x)

/-- LD Vx,[I] (R164). I is not changed (log entry 18). -/
def execLdVxMem (x : Ix) (s : State) : Outcome :=
  transact (loadBytes s.params.font s.mem s.dataAddr (x.val + 1))
    (fun bytes => (s.loadRegs bytes).advance) s

/-- ADD I,Vx (R165; log entry 30). -/
def execAddIVx (x : Ix) (s : State) : Outcome := .next (s.setI (indexPlus s.I (s.readV x))).advance

end Sys2Proof.Machine
end

