-- ==== Sys2Proof/Machine/KeypadTimers.lean ====
section
/-! DEFINITION. The keypad and timer instructions (44_timers_keypad.md R190 to R198). -/

namespace Sys2Proof.Machine

/-- SKP Vx (R193). -/
def execSkp (x : Ix) (s : State) : Outcome :=
  transact (keyIndex (s.readV x)) (fun k => s.skipIf s.keys[k]) s

/-- SKNP Vx (R194). -/
def execSknp (x : Ix) (s : State) : Outcome :=
  transact (keyIndex (s.readV x)) (fun k => s.skipIf (!s.keys[k])) s

/-- LD Vx,DT (R195). -/
def execLdVxDt (x : Ix) (s : State) : Outcome := .next (s.writeV x s.DT).advance

/-- LD Vx,K (R196): with no key pressed nothing is written and pc stays, so that the next cycle fetches
the same word; otherwise Vx is a pressed key's index. -/
def execLdVxK (x : Ix) (s : State) : Outcome :=
  match chooseKey (pressedKeys s.keys) (Config.freeKey s.draws) with
  | none => .next s
  | some k => .next (s.countDraw.writeV x (BitVec.ofNat 8 k.val)).advance

/-- LD DT,Vx (R197). -/
def execLdDtVx (x : Ix) (s : State) : Outcome := .next (s.setDT (s.readV x)).advance

/-- LD ST,Vx (R198). -/
def execLdStVx (x : Ix) (s : State) : Outcome := .next (s.setST (s.readV x)).advance

end Sys2Proof.Machine
end

