-- ==== Sys2Proof/Machine/Engine.lean ====
section
/-! DEFINITION. The engine's cycle: fetch, decode, dispatch (40_control.md R100), and the placing of one
instruction where the engine fetches next. -/

namespace Sys2Proof.Machine

/-- Dispatch of a decoded word: the instruction's meaning, which alone sets pc, or the report of an Unknown
word (40_control.md R100, R101; 60_exceptions.md R214). -/
def dispatch (d : Decoded) (s : State) : Outcome :=
  match d with
  | .instr i => exec i s
  | .unknown w => .next (s.reportUnknown w)

/-- Cycle() (40_control.md R100): a fetch error is raised first (60_exceptions.md R217). -/
def cycle (s : State) : Outcome :=
  match fetch s with
  | .error e => .next (s.raise e)
  | .ok w => dispatch (decode s.params.addI w) s

/-- RunCycle(): one cycle while run is Running, otherwise nothing changes (60_exceptions.md R231). -/
def runCycle (s : State) : Outcome :=
  match s.run with
  | .running => cycle s
  | .halted _ => .next s
  | .refused _ => .next s

/-- Where the next word is placed: pc if it can be fetched from, else PROG_BASE. -/
def fetchPlace (s : State) : Word :=
  if s.pc.toNat < Config.lastAddr then s.pc else BitVec.ofNat 16 Config.progBase

/-- Whether a word is one of Fx1E (30_encoding.md R95). -/
def isAddIWord (w : Word) : Bool := (w &&& 0xF0FF) == 0xF01E

/-- The state with a word stored where the engine fetches next, and with what that fetch needs: run
Running, a pc that can be fetched from, and P_ADD_I true when the word is Fx1E (log entries 2, 26). -/
def placeWord (s : State) (w : Word) : State :=
  { s with
    mem := pokeAll s.params.font (fetchPlace s).toNat [hiByte w, loByte w] s.mem
    pc := fetchPlace s
    run := .running
    params := { s.params with addI := s.params.addI || isAddIWord w } }

end Sys2Proof.Machine
end

