-- ==== Sys2Proof/Machine/Step.lean ====
section
/-! DEFINITION. One step of the machine: one RunCycle request (60_exceptions.md R231). -/

namespace Sys2Proof.Machine

/-- One RunCycle (60_exceptions.md R231, 40_control.md R100). -/
def step (s : State) : Host.Outcome State Fault Refusal := runCycle s

/-- `s` with the instruction of the given bits stored where step fetches next (log entry 26). -/
def State.withFetchWord (s : State) (nbits w : Nat) : State :=
  placeWord s (BitVec.ofNat 16 (w % 2 ^ nbits))

end Sys2Proof.Machine
end

