-- ==== Sys2Proof/Machine/HostPort.lean ====
section
/-! DEFINITION. The host's side of CORE: the host actions (60_exceptions.md R224 to R233), Reset and
LoadRom (70_reset_and_hazards.md R250 to R253), the outputs the host reads, and sessions, in which cycles
and host actions interleave in any order (R233; log entry 12). -/

namespace Sys2Proof.Machine

/-- One tick of one timer, clamped at 0 (60_exceptions.md R224). -/
def countDown (t : Byte) : Byte := if t = 0 then 0 else t - 1

/-- Tick(): both timers (R224; log entry 21). -/
def State.tick (s : State) : State := { s with DT := countDown s.DT, ST := countDown s.ST }

/-- SetKey(k, b) (R227). -/
def State.setKey (s : State) (k : Ix) (b : Bool) : State := { s with keys := s.keys.set k b }

/-- ConsumeFrame(): the host has read fb; dirty is cleared (R229). -/
def State.consumeFrame (s : State) : State := { s with dirty := false }

/-- Reset(): the table of 10_state.md R37 in any run state (70_reset_and_hazards.md R250, R251). -/
def State.hostReset (s : State) : State := State.afterReset s.params s.reports s.draws

/-- LoadRom(bytes): the bytes at 0x200 on, or Halted(RomTooLarge) with memory unchanged
(70_reset_and_hazards.md R252, R253). -/
def State.loadRom (s : State) (rom : List Byte) : State :=
  if rom.length > Config.romMax then { s with run := .halted (.romTooLarge rom.length) }
  else { s with mem := pokeAll s.params.font Config.progBase rom s.mem }

/-- The tone output, ST > 0 (R230). -/
def State.tone (s : State) : Bool := decide (s.ST.toNat > 0)

/-- The framebuffer output: the pixel at column c and row r (R228). -/
def State.pixel (s : State) (c : Fin 64) (r : Fin 32) : Bool := pixelAt s.fb c r

/-- What can happen next: a RunCycle request or a host action (R225, R233). Stopping is the end of the
list of moves (R234). -/
inductive Move where
  | runCycle
  | tick
  | setKey (k : Ix) (b : Bool)
  | consumeFrame
  | reset
  | loadRom (rom : List Byte)
deriving DecidableEq, Repr

/-- CORE in a session, with whether LoadRom is allowed: only after a Reset and before the first cycle
after it (70_reset_and_hazards.md R252; log entry 22). -/
structure Session where
  core : State
  romAllowed : Bool
deriving DecidableEq, Repr

/-- The session right after reset. -/
def Session.start : Session := { core := State.reset, romAllowed := true }

/-- One move. None where the host has no such move: a LoadRom after the first cycle (R226, R252). A
RunCycle performs a cycle, and so ends the time for LoadRom, only while run is Running (R231). -/
def Session.move (c : Session) : Move → Option Session
  | .runCycle =>
    match step c.core with
    | .next t => some { core := t, romAllowed := c.romAllowed && decide (c.core.run ≠ .running) }
    | .fault _ => none
    | .refused _ => none
  | .tick => some { c with core := c.core.tick }
  | .setKey k b => some { c with core := c.core.setKey k b }
  | .consumeFrame => some { c with core := c.core.consumeFrame }
  | .reset => some { core := c.core.hostReset, romAllowed := true }
  | .loadRom rom => if c.romAllowed then some { c with core := c.core.loadRom rom } else none

/-- A list of moves, in order; none when one of them is not a move the host has. -/
def Session.moves (c : Session) : List Move → Option Session
  | [] => some c
  | m :: ms =>
    match c.move m with
    | none => none
    | some c' => c'.moves ms

end Sys2Proof.Machine
end

