-- ==== Sys2Proof/Safety.lean ====
section
/-! DEFINITION. The terms claims are stated in: the observable parts of the state and frames over them,
the invariant of the machine, and runs that stay clear of the spec's model-only refusal. -/

namespace Sys2Proof.Machine

/-- One observable part of the state. Memory is observed byte by byte, the framebuffer pixel by pixel. -/
inductive Part where
  | reg (x : Ix)
  | index
  | pc
  | sp
  | slot (j : Ix)
  | delay
  | sound
  | key (k : Ix)
  | pixel (c : Fin 64) (r : Fin 32)
  | dirty
  | run
  | byte (a : Nat)
  | params
  | reports
  | draws
deriving DecidableEq, Repr

/-- A part is the same in two states. -/
def Part.Same : Part → State → State → Prop
  | .reg x, s, t => t.readV x = s.readV x
  | .index, s, t => t.I = s.I
  | .pc, s, t => t.pc = s.pc
  | .sp, s, t => t.sp = s.sp
  | .slot j, s, t => t.stack[j] = s.stack[j]
  | .delay, s, t => t.DT = s.DT
  | .sound, s, t => t.ST = s.ST
  | .key k, s, t => t.keys[k] = s.keys[k]
  | .pixel c r, s, t => t.pixel c r = s.pixel c r
  | .dirty, s, t => t.dirty = s.dirty
  | .run, s, t => t.run = s.run
  | .byte a, s, t => t.byteAt a = s.byteAt a
  | .params, s, t => t.params = s.params
  | .reports, s, t => t.reports = s.reports
  | .draws, s, t => t.draws = s.draws

/-- A frame: every part outside `may` is the same in both states. -/
def OnlyChanges (may : Part → Prop) (s t : State) : Prop := ∀ p : Part, ¬ may p → p.Same s t

/-- The part is a general register. -/
def Part.isReg : Part → Prop
  | .reg _ => True
  | _ => False

/-- The part is a pixel of the framebuffer. -/
def Part.isPixel : Part → Prop
  | .pixel _ _ => True
  | _ => False

/-- The part is one of the `count` bytes of memory from address `a` on. -/
def Part.isByteOf (a count : Nat) : Part → Prop
  | .byte b => a ≤ b ∧ b < a + count
  | _ => False

/-- The invariant of CORE: what the spec says, or derives, of every reachable state, and the model's own form of
memory. -/
structure MachineInv (s : State) : Prop where
  /-- Memory is in its canonical form, inside the address space: the model's form, log entry 25. -/
  memory : memoryWf s.params.font s.mem = true
  /-- pc is in 0x0000..0x10FE (10_state.md R25). -/
  pcRange : s.pc.toNat ≤ 0x10FE
  /-- Every slot holds an address at most 0x1000 (R25). -/
  slotRange : ∀ j : Ix, s.stack[j].toNat ≤ 0x1000
  /-- stack[15] is never written (R27). -/
  topSlot : s.stack[(15 : Ix)] = 0
  /-- Unless P_FONT_WRITE is Store the font region holds FONT (20_memory.md R59). -/
  fontRegion : s.params.fontWrite ≠ .store → ∀ a : Nat, (h : a < 80) → s.byteAt a = s.params.font[a]
  /-- Without ADD I,Vx, I is at most 0xFFF (42_index_memory.md R165). -/
  indexRange : s.params.addI = false → s.I.toNat ≤ 0xFFF

/-- The state has not entered the spec's model-only refusal, past which nothing is claimed of the hardware
(60_exceptions.md R216; log entry 7). -/
def State.specified (s : State) : Prop := ∀ r, s.run ≠ .refused r

/-- The state can fetch: run is Running and both bytes at pc are inside memory (20_memory.md R54). -/
def State.canFetch (s : State) : Prop := s.run = .running ∧ s.pc.toNat < Config.lastAddr

/-- The word at a fetchable pc, high byte first (20_memory.md R54). -/
def State.nextWord (s : State) : Word :=
  wordOfBytes (s.byteAt s.pc.toNat) (s.byteAt (s.pc.toNat + 1))

/-- The lowest address above 0xFFF among the addresses from `a` on (20_memory.md R54). -/
def firstOutside (a : Nat) : Nat := max a 0x1000

/-- The state after a fatal error: run records it, nothing else changes (60_exceptions.md R212). -/
def State.haltedBy (s : State) (e : FatalError) : State := { s with run := .halted e }

/-- The state after a model-only refusal (60_exceptions.md R216). -/
def State.refusedBy (s : State) (r : Unspecified) : State := { s with run := .refused r }

/-- A set bit of the sprite of DRW Vx,Vy,n falls on the pixel at column c and row r: row byte `row` at
I + row, its bit 7 - col at column (Vx + col) mod 64 and row (Vy + row) mod 32 (43_display.md R181 to R183). -/
def SpriteCovers (s : State) (x y n : Ix) (c : Fin 64) (r : Fin 32) : Prop :=
  ∃ row col : Nat, row < n.val ∧ col < 8 ∧
    (s.byteAt (s.dataAddr + row)).getLsbD (7 - col) = true ∧
    c.val = ((s.readV x).toNat + col) % 64 ∧ r.val = ((s.readV y).toNat + row) % 32

/-- The sprite's set bits overlap the lit pixels (43_display.md R184). -/
def SpriteOverlaps (s : State) (x y n : Ix) : Prop :=
  ∃ c r, SpriteCovers s x y n c r ∧ s.pixel c r = true

/-- The parts an instruction may change: the "writes" column of 10_state.md R22 for the registers, the
accesses of 20_memory.md R61 for memory, and the effects its rule names for the rest. -/
def instrMayChange (s : State) : Instr → Part → Prop
  | .cls, p => p.isPixel ∨ p = .dirty ∨ p = .pc ∨ p = .draws
  | .ret, p => p = .sp ∨ p = .pc ∨ p = .run
  | .call _, p => p = .slot s.sp ∨ p = .sp ∨ p = .pc ∨ p = .run
  | .jp _, p | .jpV0 _, p => p = .pc
  | .seImm _ _, p | .sneImm _ _, p | .seReg _ _, p | .sneReg _ _, p => p = .pc
  | .ldImm x _, p | .addImm x _, p | .ldReg x _, p | .or x _, p | .and x _, p | .xor x _, p =>
    p = .reg x ∨ p = .pc
  | .addReg x _, p | .sub x _, p | .shr x, p | .subn x _, p | .shl x, p =>
    p = .reg 15 ∨ p = .reg x ∨ p = .pc
  | .rnd x _, p => p = .reg x ∨ p = .pc ∨ p = .draws
  | .ldI _, p | .ldFVx _, p | .addIVx _, p => p = .index ∨ p = .pc
  | .ldBVx _, p => p.isByteOf s.dataAddr 3 ∨ p = .pc ∨ p = .run
  | .ldMemVx x, p => p.isByteOf s.dataAddr (x.val + 1) ∨ p = .pc ∨ p = .run
  | .ldVxMem x, p => (∃ k : Ix, k ≤ x ∧ p = .reg k) ∨ p = .pc ∨ p = .run
  | .drw _ _ _, p => p.isPixel ∨ p = .reg 15 ∨ p = .dirty ∨ p = .pc ∨ p = .run
  | .skp _, p | .sknp _, p => p = .pc ∨ p = .run
  | .ldVxDt x, p => p = .reg x ∨ p = .pc
  | .ldVxK x, p => p = .reg x ∨ p = .pc ∨ p = .draws
  | .ldDtVx _, p => p = .delay ∨ p = .pc
  | .ldStVx _, p => p = .sound ∨ p = .pc

/-- The instructions that read the key latch (10_state.md R30). -/
def readsKeys : Instr → Bool
  | .skp _ | .sknp _ | .ldVxK _ => true
  | _ => false

/-- The word with the bits its row ignores cleared: y of SHR and SHL (30_encoding.md R89). -/
def usedBits : Instr → Word → Word
  | .shr _, w | .shl _, w => w &&& 0xFF0F
  | _, w => w

end Sys2Proof.Machine
end

