-- ==== Sys2Proof/Certificates/Slice0/Obligations.lean ====
section
/-! DEFINITION. The statements about CORE, from the numbered rules of spec/. Where one rests on a choice the
spec marks as its own (a decision D<n>, a derivation, general knowledge) or on one of the model's log entries,
its docstring says so. -/

open Sys2Proof Sys2Proof.Machine

/-! ### Reset, the host and the invariant -/

/-- After reset every piece of the spec's state holds the value of 10_state.md R37's table. Rests on
90_conflicts.md C7 for I, keys and dirty and on D18 for run. -/
def Obligations.ResetLeavesTheTable : Prop :=
  (∀ x, State.reset.readV x = 0) ∧ State.reset.I = 0 ∧ State.reset.pc = 0x200 ∧
  State.reset.sp = 0 ∧ (∀ j : Ix, State.reset.stack[j] = 0) ∧ State.reset.DT = 0 ∧
  State.reset.ST = 0 ∧ (∀ k : Ix, State.reset.keys[k] = false) ∧
  (∀ c r, State.reset.pixel c r = false) ∧ State.reset.dirty = false ∧
  State.reset.run = .running ∧
  (∀ a : Nat, (h : a < 80) → State.reset.byteAt a = State.reset.params.font[a]) ∧
  (∀ a : Nat, 0x50 ≤ a → a ≤ 0xFFF → State.reset.byteAt a = 0)

/-- Reset() from any state, in any run state, establishes the same table and keeps the machine's parameters.
Rests on D18 and 90_conflicts.md C7; that it keeps the report stream and the count of draws is the model's
choice, log entries 8 and 11. -/
def Obligations.HostResetFromAnyState : Prop :=
  ∀ s : State,
    (∀ x, s.hostReset.readV x = 0) ∧ s.hostReset.I = 0 ∧ s.hostReset.pc = 0x200 ∧
    s.hostReset.sp = 0 ∧ (∀ j : Ix, s.hostReset.stack[j] = 0) ∧ s.hostReset.DT = 0 ∧
    s.hostReset.ST = 0 ∧ (∀ k : Ix, s.hostReset.keys[k] = false) ∧
    (∀ c r, s.hostReset.pixel c r = false) ∧ s.hostReset.dirty = false ∧
    s.hostReset.run = .running ∧
    (∀ a : Nat, (h : a < 80) → s.hostReset.byteAt a = s.params.font[a]) ∧
    (∀ a : Nat, 0x50 ≤ a → s.hostReset.byteAt a = 0) ∧
    s.hostReset.params = s.params ∧ s.hostReset.reports = s.reports ∧ s.hostReset.draws = s.draws

/-- The invariant holds after reset. Its canonical-memory clause is the model's own form, log entry 25; the reset
value of I rests on 90_conflicts.md C7, log entry 23; the other clauses rest as log entry 36 says. -/
def Obligations.InvariantAtReset : Prop := MachineInv State.reset

/-- Every step keeps the invariant: canonical memory, pc in 0..0x10FE, stack slots at most 0x1000, stack[15]
never written, FONT in the font region unless P_FONT_WRITE is Store, I at most 0xFFF without ADD I,Vx. The
canonical-memory clause is the model's own form, log entry 25. The clauses on pc and the slots are derived in R25,
the one on stack[15] is derived in R27, the font region rests on D9, and the bound of I is inferred from R160 and
R161; log entry 36. -/
def Obligations.StepKeepsInvariant : Prop :=
  ∀ s t : State, MachineInv s → step s = .next t → MachineInv t

/-- The invariant holds along every interleaving of cycles and host actions, from every session whose state
has it. The interleaving is D19, and sessions are the model's form of it, log entry 12; the canonical-memory clause
of the invariant is the model's own form, log entry 25; its other clauses rest as log entry 36 says. -/
def Obligations.SessionsKeepInvariant : Prop :=
  ∀ (c c' : Session) (ms : List Move), MachineInv c.core → c.moves ms = some c' → MachineInv c'.core

/-- No move changes the machine's parameters. Holding them in State is the model's choice, log entry 1. -/
def Obligations.SessionsKeepParameters : Prop :=
  ∀ (c c' : Session) (ms : List Move), c.moves ms = some c' → c'.core.params = c.core.params

/-- Once the engine has halted or been refused, only Reset makes it run again. Rests on D18 and D31. -/
def Obligations.OnlyResetLeavesHalted : Prop :=
  ∀ (c c' : Session) (m : Move), c.core.run ≠ .running → c.move m = some c' →
    (c'.core.run = .running ↔ m = .reset)

/-- A tick counts each timer down by one and clamps it at 0, whatever run is; n ticks count down by n; nothing
else changes. That one tick counts both rests on D20, that run does not matter on D30. -/
def Obligations.TickCountsDown : Prop :=
  (∀ s : State, s.tick.DT.toNat = s.DT.toNat - 1 ∧ s.tick.ST.toNat = s.ST.toNat - 1 ∧
    OnlyChanges (fun p => p = .delay ∨ p = .sound) s s.tick) ∧
  ∀ (n : Nat) (s : State), (State.tick^[n] s).DT.toNat = s.DT.toNat - n ∧
    (State.tick^[n] s).ST.toNat = s.ST.toNat - n

/-- SetKey(k, b) sets key k and nothing else. -/
def Obligations.SetKeySetsOneKey : Prop :=
  ∀ (s : State) (k : Ix) (b : Bool),
    (s.setKey k b).keys[k] = b ∧ OnlyChanges (fun p => p = .key k) s (s.setKey k b)

/-- ConsumeFrame() clears dirty and nothing else, and the tone output is ST > 0. -/
def Obligations.ConsumeFrameAndTone : Prop :=
  ∀ s : State, s.consumeFrame.dirty = false ∧ OnlyChanges (fun p => p = .dirty) s s.consumeFrame ∧
    (s.tone = true ↔ 0 < s.ST.toNat)

/-- LoadRom(bytes): a ROM of at most 3584 bytes stands at 0x200 on, every other byte as before; a longer one
loads nothing and halts with RomTooLarge and its length. Rests on D21. -/
def Obligations.LoadRomPlacesBytes : Prop :=
  ∀ (s : State) (rom : List Byte),
    (rom.length ≤ 3584 →
      (∀ j : Nat, (h : j < rom.length) → (s.loadRom rom).byteAt (0x200 + j) = rom[j]) ∧
      OnlyChanges (fun p => p.isByteOf 0x200 rom.length) s (s.loadRom rom)) ∧
    (3584 < rom.length → s.loadRom rom = s.haltedBy (.romTooLarge rom.length))

/-- LoadRom is a move after a Reset and before the first cycle after it, and at no other time: Reset allows it, a
cycle ends that, and every other move leaves it as it was, a RunCycle request to a stopped engine (which performs no
cycle) included. Rests on D21; remembering it in the session is the model's choice, log entry 22. -/
def Obligations.LoadRomOnlyBeforeFirstCycle : Prop :=
  (∀ (c : Session) (rom : List Byte), c.move (.loadRom rom) = none ↔ c.romAllowed = false) ∧
  (∀ c c' : Session, c.move .reset = some c' → c'.romAllowed = true) ∧
  (∀ c c' : Session, c.move .runCycle = some c' → c.core.run = .running → c'.romAllowed = false) ∧
  (∀ c c' : Session, c.move .runCycle = some c' → c.core.run ≠ .running →
    c'.romAllowed = c.romAllowed) ∧
  (∀ (c c' : Session) (m : Move), c.move m = some c' → m ≠ .runCycle → m ≠ .reset →
    c'.romAllowed = c.romAllowed)

/-! ### Memory -/

/-- Bytes written by a completed block store outside the font region, or with P_FONT_WRITE Store, are the bytes a
block read there gives, and a block read that meets none of them gives what it gave before. -/
def Obligations.BlockReadAfterWrite : Prop :=
  ∀ (p : Params) (a : Nat) (vs : List Byte) (m m' : Memory), storeBytes p a vs m = .ok m' →
    (0x4F < a ∨ p.fontWrite = .store) →
    loadBytes p.font m' a vs.length = .ok vs ∧
    ∀ b n : Nat, b + n ≤ a ∨ a + vs.length ≤ b → loadBytes p.font m' b n = loadBytes p.font m b n

/-- Canonical memories that read alike are the same list. The form is the model's choice, log entry 25. -/
def Obligations.CanonicalMemoriesAreEqual : Prop :=
  ∀ (font : Vector Byte 80) (m m' : Memory), memoryWf font m = true → memoryWf font m' = true →
    (∀ a, peek font a m = peek font a m') → m = m'

/-- The parts see the whole state: states with canonical memory that agree on every part are equal. It speaks of
the model's own form: canonical memory is log entry 25, and the fields params, reports and draws are log entries 1,
11 and 8. -/
def Obligations.PartsDetermineState : Prop :=
  ∀ s t : State, memoryWf s.params.font s.mem = true → memoryWf t.params.font t.mem = true →
    (∀ p : Part, p.Same s t) → s = t

/-- MemRead and MemWrite: the bounds check, the three settings of P_FONT_WRITE in the font region, and the
byte elsewhere. The font-region case rests on D9. -/
def Obligations.AccessPrimitives : Prop :=
  ∀ (p : Params) (m : Memory) (a : Nat) (v : Byte),
    (a ≤ 0xFFF → memRead p.font m a = .ok (peek p.font a m)) ∧
    (0xFFF < a → memRead p.font m a = .error (.fatal (.outOfBoundsAddress a)) ∧
      memWrite p a v m = .error (.fatal (.outOfBoundsAddress a))) ∧
    (0x4F < a → a ≤ 0xFFF → memWrite p a v m = .ok (poke p.font a v m)) ∧
    (a ≤ 0x4F → p.fontWrite = .store → memWrite p a v m = .ok (poke p.font a v m)) ∧
    (a ≤ 0x4F → p.fontWrite = .discard → memWrite p a v m = .ok m) ∧
    (a ≤ 0x4F → p.fontWrite = .refuse → memWrite p a v m = .error (.refuse (.fontRegionWrite a)))

/-! ### Encoding -/

/-- The decoder reads from the encoding of every instruction that instruction, every operand at every value,
when the machine has it, and Unknown when it does not. The patterns are general knowledge, D1. -/
def Obligations.DecodeOfEncode : Prop :=
  ∀ (addI : Bool) (i : Instr),
    decode addI (encode i) = if i.wellFormed addI then .instr i else .unknown (encode i)

/-- The encoding of what the decoder reads is the word, less the ignored y field of SHR and SHL, and the
decoder reads only instructions the machine has. Rests on D1 and D4. -/
def Obligations.EncodeOfDecode : Prop :=
  ∀ (addI : Bool) (w : Word) (i : Instr), decode addI w = .instr i →
    encode i = usedBits i w ∧ i.wellFormed addI = true

/-- The decoder is the opcode map: with P_ADD_I, a word matches a row by mask and match exactly when the decoder
gives that row's instruction, so no word matches two rows; without P_ADD_I only the words Fx1E differ, and are
Unknown. Rests on D1, D2 and D4. -/
def Obligations.DecoderIsTheOpcodeMap : Prop :=
  (∀ (w : Word) (k : Nat) (row : OpRow), opcodeMap[k]? = some row →
    (w &&& row.mask = row.pattern ↔ ∃ i, decode true w = .instr i ∧ i.rowNo = k)) ∧
  ∀ w : Word, decode false w = if w &&& 0xF0FF = 0xF01E then .unknown w else decode true w

/-- The Unknown words when P_ADD_I is false are exactly the six spaces of 30_encoding.md R90. Rests on D1 to D4;
the counts of R90 are not stated. -/
def Obligations.UnknownSpace : Prop :=
  ∀ w : Word, decode false w = .unknown w ↔
    (w.toNat / 4096 = 0x0 ∧ w ≠ 0x00E0 ∧ w ≠ 0x00EE) ∨
    (w.toNat / 4096 = 0x5 ∧ w.toNat % 16 ≠ 0) ∨
    (w.toNat / 4096 = 0x8 ∧ w.toNat % 16 ∈ [0x8, 0x9, 0xA, 0xB, 0xC, 0xD, 0xF]) ∨
    (w.toNat / 4096 = 0x9 ∧ w.toNat % 16 ≠ 0) ∨
    (w.toNat / 4096 = 0xE ∧ w.toNat % 256 ∉ [0x9E, 0xA1]) ∨
    (w.toNat / 4096 = 0xF ∧ w.toNat % 256 ∉ [0x07, 0x0A, 0x15, 0x18, 0x29, 0x33, 0x55, 0x65])

/-- A few words of the spec's decoder vectors, written out (95_test_vectors.md section 2.1). The patterns are general
knowledge, D1, log entry 3; that F01E goes by P_ADD_I is D2, log entry 2; that 0123 and 5121 are Unknown and the y of
8126 is ignored is D3 and D4, log entry 28. -/
def Obligations.SampleWordsDecode : Prop :=
  decode false 0x00E0 = .instr .cls ∧ decode false 0x0123 = .unknown 0x0123 ∧
  decode false 0x5120 = .instr (.seReg 1 2) ∧ decode false 0x5121 = .unknown 0x5121 ∧
  decode false 0x9AB0 = .instr (.sneReg 0xA 0xB) ∧ decode false 0x8126 = .instr (.shr 1) ∧
  decode false 0xE1A1 = .instr (.sknp 1) ∧ decode false 0xF01E = .unknown 0xF01E ∧
  decode true 0xF01E = .instr (.addIVx 0) ∧ decode false 0xD000 = .instr (.drw 0 0 0)

/-! ### The engine -/

/-- Fetch(pc): the big-endian word at pc for pc at most 0xFFE, and otherwise OutOfBoundsAddress with the lowest
address outside memory. The reported address rests on D7. -/
def Obligations.FetchIsBigEndian : Prop :=
  ∀ s : State,
    (s.pc.toNat ≤ 0xFFE → ∃ w, fetch s = .ok w ∧
      w.toNat = (s.byteAt s.pc.toNat).toNat * 256 + (s.byteAt (s.pc.toNat + 1)).toNat) ∧
    (0xFFE < s.pc.toNat →
      fetch s = .error (.fatal (.outOfBoundsAddress (firstOutside s.pc.toNat))))

/-- A step runs the instruction decoded at pc, and nothing is added around it. -/
def Obligations.StepRunsDecodedInstruction : Prop :=
  ∀ (s : State) (i : Instr), s.canFetch → decode s.params.addI s.nextWord = .instr i →
    step s = exec i s

/-- A step at an Unknown word reports it with its pc, advances pc by 2 and changes nothing else. The payload
rests on D17. -/
def Obligations.StepReportsUnknown : Prop :=
  ∀ s : State, s.canFetch → decode s.params.addI s.nextWord = .unknown s.nextWord →
    ∃ t, step s = .next t ∧ t.pc = s.pc + 2 ∧ t.reports = s.reports ++ [⟨s.pc, s.nextWord⟩] ∧
      OnlyChanges (fun p => p = .pc ∨ p = .reports) s t

/-- A step of a running engine whose pc cannot be fetched from halts with OutOfBoundsAddress and changes nothing
but run. Rests on D6 and D7. -/
def Obligations.UnfetchablePcHalts : Prop :=
  ∀ s : State, s.run = .running → 0xFFE < s.pc.toNat →
    step s = .next (s.haltedBy (.outOfBoundsAddress (firstOutside s.pc.toNat)))

/-- RunCycle(): one cycle while run is Running, and otherwise nothing changes. -/
def Obligations.RunCycleOnlyWhileRunning : Prop :=
  ∀ s : State, (s.run = .running → step s = cycle s) ∧ (s.run ≠ .running → step s = .next s)

/-- Every step answers a next state: an error of the spec is an effect on run. The form is the model's choice,
log entries 6 and 7. -/
def Obligations.EveryStepHasANextState : Prop := ∀ s : State, ∃ t, step s = .next t

/-- Errors are precise: a cycle that stops the engine changes nothing but run. Derived in the spec from D6. -/
def Obligations.ErrorsArePrecise : Prop :=
  ∀ s t : State, s.run = .running → step s = .next t → t.run ≠ .running →
    t = { s with run := t.run }

/-- The instruction of every opcode-table word is run by the very next step when its word is placed there. The
placing is the model's choice, log entries 2 and 26. -/
def Obligations.PlacedWordRunsNext : Prop :=
  ∀ (s : State) (nbits w : Nat) (i : Instr), decodeTableWord nbits w = some i →
    step (s.withFetchWord nbits w) = exec i (s.withFetchWord nbits w)

/-- Fetch is coherent with stores: two registers stored by LD [I],Vx are the word fetched there. Rests on D24. -/
def Obligations.StoredBytesAreFetched : Prop :=
  ∀ (s : State) (x k : Ix), k.val < x.val → s.dataAddr + x.val ≤ 0xFFF →
    (0x4F < s.dataAddr ∨ s.params.fontWrite = .store) →
    ∃ t, exec (.ldMemVx x) s = .next t ∧
      fetch { t with pc := s.I + BitVec.ofNat 16 k.val } =
        .ok (wordOfBytes (s.readV k) (s.readV (k + 1)))

/-- With no ROM the reset machine reports the word 0000 at 0x200, 0x202, ..., 0xFFE, changing nothing else, and
halts with OutOfBoundsAddress(0x1000) in cycle 1793. Derived in the spec (70_reset_and_hazards.md R256). -/
def Obligations.NoRomRunsToTheEnd : Prop :=
  (∀ n : Nat, n ≤ 1792 → Sys2Proof.core.run n State.reset =
    .next { State.reset with
      pc := BitVec.ofNat 16 (0x200 + 2 * n)
      reports := (List.range n).map fun j => ⟨BitVec.ofNat 16 (0x200 + 2 * j), 0⟩ }) ∧
  ∃ t, Sys2Proof.core.run 1793 State.reset = .next t ∧ t.pc = 0x1000 ∧ t.reports.length = 1792 ∧
    t.run = .halted (.outOfBoundsAddress 0x1000)

/-! ### Whole-machine frames -/

/-- The frame of every instruction: what its rule does not write stays, register by register, byte by byte of
memory, pixel by pixel. `instrMayChange` computes the bytes LD B and LD [I] store to from I, as the meanings do. That I
stays over LD [I],Vx and LD Vx,[I] rests on D16, log entry 18; that ADD I,Vx keeps VF is general knowledge, K5 and
D29, log entry 30; that a raise keeps all but run rests on D6, log entry 14; that CLS, RND and LD Vx,K alone may count
a draw is the model's form, log entries 8 to 10. -/
def Obligations.EveryInstructionFrame : Prop :=
  ∀ (i : Instr) (s t : State), exec i s = .next t → OnlyChanges (instrMayChange s i) s t

/-- No step changes a stack slot below sp: a return address held stays as pushed until its RET. -/
def Obligations.HeldReturnAddressesStay : Prop :=
  ∀ (s t : State) (j : Ix), step s = .next t → j < s.sp → t.stack[j] = s.stack[j]

/-- No instruction reads ST or the reports, and only SKP, SKNP and LD Vx,K read the key latch: changing these
changes nothing else of the outcome. The field reports is the model's own, log entry 11; that reports are output
and no state of the machine is R35 and D28. -/
def Obligations.UnreadStateDoesNotFlow : Prop :=
  ∀ (i : Instr) (s t : State) (v : Byte) (rs : List Report) (ks : Vector Bool 16),
    exec i s = .next t → (readsKeys i = true → ks = s.keys) →
    ∃ t', exec i { s with ST := v, reports := rs, keys := ks } = .next t' ∧
      { t' with ST := t.ST, reports := t.reports, keys := t.keys } = t ∧
      t'.keys = ks ∧ t'.reports = rs ∧ ((∀ x, i ≠ .ldStVx x) → t'.ST = v)

/-! ### Control transfer -/

/-- JP nnn sets pc to nnn, odd or even, and changes nothing else; a target of 0xFFF halts the next cycle with
OutOfBoundsAddress(0x1000). The check at the next fetch, and its address, rest on D7. -/
def Obligations.JumpSetsPc : Prop :=
  ∀ (s : State) (nnn : Addr12), ∃ t, exec (.jp nnn) s = .next t ∧ t.pc.toNat = nnn.toNat ∧
    OnlyChanges (fun p => p = .pc) s t ∧
    (nnn = 0xFFF → s.run = .running → step t = .next (t.haltedBy (.outOfBoundsAddress 0x1000)))

/-- JP V0,nnn sets pc to nnn + V0, without a wrap, and changes nothing else; a sum above 0xFFE halts the next cycle
with OutOfBoundsAddress. The check at the next fetch, and its address, rest on D7. -/
def Obligations.JumpOffsetAddsV0 : Prop :=
  ∀ (s : State) (nnn : Addr12), ∃ t, exec (.jpV0 nnn) s = .next t ∧
    t.pc.toNat = nnn.toNat + (s.readV 0).toNat ∧ OnlyChanges (fun p => p = .pc) s t ∧
    (0xFFE < t.pc.toNat → s.run = .running →
      step t = .next (t.haltedBy (.outOfBoundsAddress (firstOutside t.pc.toNat))))

/-- CALL nnn pushes pc + 2 and jumps when sp is below 15; at 15 it halts with StackOverflow and its own pc,
writing nothing. Its word is DecoderIsTheOpcodeMap's. -/
def Obligations.CallPushesReturnAddress : Prop :=
  ∀ (s : State) (nnn : Addr12),
    (s.sp ≠ 15 → ∃ t, exec (.call nnn) s = .next t ∧ t.stack[s.sp] = s.pc + 2 ∧
      t.sp.val = s.sp.val + 1 ∧ t.pc.toNat = nnn.toNat ∧
      OnlyChanges (fun p => p = .slot s.sp ∨ p = .sp ∨ p = .pc) s t) ∧
    (s.sp = 15 → exec (.call nnn) s = .next (s.haltedBy (.stackOverflow s.pc)))

/-- RET pops into pc when sp is above 0, keeping the slot; at 0 it halts with StackUnderflow and its own pc,
writing nothing. The payload rests on D17. -/
def Obligations.ReturnPopsPc : Prop :=
  ∀ s : State,
    (s.sp ≠ 0 → ∃ t, exec .ret s = .next t ∧ t.sp.val + 1 = s.sp.val ∧ t.pc = s.stack[t.sp] ∧
      OnlyChanges (fun p => p = .sp ∨ p = .pc) s t) ∧
    (s.sp = 0 → exec .ret s = .next (s.haltedBy (.stackUnderflow s.pc)))

/-- A CALL and the RET that matches it, any state in between that holds the slot and the depth, return to pc + 2
at the depth before. Derived in the spec (40_control.md R109). -/
def Obligations.CallReturnRoundTrip : Prop :=
  ∀ (s t u : State) (nnn : Addr12), s.sp ≠ 15 → exec (.call nnn) s = .next t →
    u.sp = t.sp → u.stack[s.sp] = t.stack[s.sp] →
    ∃ v, exec .ret u = .next v ∧ v.pc = s.pc + 2 ∧ v.sp = s.sp

/-- SE and SNE, both forms, add 4 to pc when the comparison holds and 2 otherwise, and change nothing else.
Their words are DecoderIsTheOpcodeMap's. -/
def Obligations.CompareSkips : Prop :=
  ∀ (s : State) (x y : Ix) (kk : Byte),
    (∃ t, exec (.seImm x kk) s = .next t ∧
      t.pc = (if s.readV x = kk then s.pc + 4 else s.pc + 2) ∧ OnlyChanges (fun p => p = .pc) s t) ∧
    (∃ t, exec (.sneImm x kk) s = .next t ∧
      t.pc = (if s.readV x ≠ kk then s.pc + 4 else s.pc + 2) ∧ OnlyChanges (fun p => p = .pc) s t) ∧
    (∃ t, exec (.seReg x y) s = .next t ∧
      t.pc = (if s.readV x = s.readV y then s.pc + 4 else s.pc + 2) ∧
      OnlyChanges (fun p => p = .pc) s t) ∧
    (∃ t, exec (.sneReg x y) s = .next t ∧
      t.pc = (if s.readV x ≠ s.readV y then s.pc + 4 else s.pc + 2) ∧
      OnlyChanges (fun p => p = .pc) s t)

/-! ### Arithmetic and logic -/

/-- LD Vx,kk and ADD Vx,kk write Vx, modulo 256, advance pc by 2 and change nothing else, VF included unless x
is F. Their words are DecoderIsTheOpcodeMap's. -/
def Obligations.ImmediateLoadAndAdd : Prop :=
  ∀ (s : State) (x : Ix) (kk : Byte),
    (∃ t, exec (.ldImm x kk) s = .next t ∧ t.readV x = kk ∧ t.pc = s.pc + 2 ∧
      OnlyChanges (fun p => p = .reg x ∨ p = .pc) s t) ∧
    (∃ t, exec (.addImm x kk) s = .next t ∧
      (t.readV x).toNat = ((s.readV x).toNat + kk.toNat) % 256 ∧ t.pc = s.pc + 2 ∧
      OnlyChanges (fun p => p = .reg x ∨ p = .pc) s t)

/-- LD, OR, AND and XOR Vx,Vy write Vx, bit by bit from Vx and Vy, advance pc by 2 and change nothing else: VF is
not reset. Their words are DecoderIsTheOpcodeMap's. -/
def Obligations.MovesAndLogic : Prop :=
  ∀ (s : State) (x y : Ix),
    (∃ t, exec (.ldReg x y) s = .next t ∧ t.readV x = s.readV y ∧ t.pc = s.pc + 2 ∧
      OnlyChanges (fun p => p = .reg x ∨ p = .pc) s t) ∧
    (∃ t, exec (.or x y) s = .next t ∧
      (∀ b, (t.readV x).getLsbD b = ((s.readV x).getLsbD b || (s.readV y).getLsbD b)) ∧
      t.pc = s.pc + 2 ∧ OnlyChanges (fun p => p = .reg x ∨ p = .pc) s t) ∧
    (∃ t, exec (.and x y) s = .next t ∧
      (∀ b, (t.readV x).getLsbD b = ((s.readV x).getLsbD b && (s.readV y).getLsbD b)) ∧
      t.pc = s.pc + 2 ∧ OnlyChanges (fun p => p = .reg x ∨ p = .pc) s t) ∧
    (∃ t, exec (.xor x y) s = .next t ∧
      (∀ b, (t.readV x).getLsbD b = ((s.readV x).getLsbD b != (s.readV y).getLsbD b)) ∧
      t.pc = s.pc + 2 ∧ OnlyChanges (fun p => p = .reg x ∨ p = .pc) s t)

/-- ADD Vx,Vy: Vx is the sum modulo 256 of the values before the cycle; VF is the carry unless x is F, and then
the sum. The snapshot and the write order rest on D5. -/
def Obligations.AddSetsCarry : Prop :=
  ∀ (s : State) (x y : Ix), ∃ t, exec (.addReg x y) s = .next t ∧
    (t.readV x).toNat = ((s.readV x).toNat + (s.readV y).toNat) % 256 ∧
    (x ≠ 15 → t.readV 15 = if (s.readV x).toNat + (s.readV y).toNat > 255 then 1 else 0) ∧
    t.pc = s.pc + 2 ∧ OnlyChanges (fun p => p = .reg x ∨ p = .reg 15 ∨ p = .pc) s t

/-- SUB and SUBN Vx,Vy: Vx is the difference modulo 256 of the values before the cycle; VF is 1 exactly when the
minuend is strictly greater, unless x is F, and then the difference. The snapshot and the write order rest on D5. -/
def Obligations.SubtractSetsStrictFlag : Prop :=
  ∀ (s : State) (x y : Ix),
    (∃ t, exec (.sub x y) s = .next t ∧
      ((t.readV x).toNat : Int) = ((s.readV x).toNat - (s.readV y).toNat : Int) % 256 ∧
      (x ≠ 15 → t.readV 15 = if (s.readV x).toNat > (s.readV y).toNat then 1 else 0) ∧
      t.pc = s.pc + 2 ∧ OnlyChanges (fun p => p = .reg x ∨ p = .reg 15 ∨ p = .pc) s t) ∧
    (∃ t, exec (.subn x y) s = .next t ∧
      ((t.readV x).toNat : Int) = ((s.readV y).toNat - (s.readV x).toNat : Int) % 256 ∧
      (x ≠ 15 → t.readV 15 = if (s.readV y).toNat > (s.readV x).toNat then 1 else 0) ∧
      t.pc = s.pc + 2 ∧ OnlyChanges (fun p => p = .reg x ∨ p = .reg 15 ∨ p = .pc) s t)

/-- SHR and SHL Vx shift Vx by one bit; VF is the bit shifted out unless x is F, and then the result. The write
order rests on D5. -/
def Obligations.ShiftsByOne : Prop :=
  ∀ (s : State) (x : Ix),
    (∃ t, exec (.shr x) s = .next t ∧ (t.readV x).toNat = (s.readV x).toNat / 2 ∧
      (x ≠ 15 → (t.readV 15).toNat = (s.readV x).toNat % 2) ∧
      t.pc = s.pc + 2 ∧ OnlyChanges (fun p => p = .reg x ∨ p = .reg 15 ∨ p = .pc) s t) ∧
    (∃ t, exec (.shl x) s = .next t ∧ (t.readV x).toNat = (s.readV x).toNat * 2 % 256 ∧
      (x ≠ 15 → (t.readV 15).toNat = (s.readV x).toNat / 128) ∧
      t.pc = s.pc + 2 ∧ OnlyChanges (fun p => p = .reg x ∨ p = .reg 15 ∨ p = .pc) s t)

/-- RND Vx,kk writes some byte masked with kk, whatever the free value is: a bit clear in kk is clear in Vx. The
free byte rests on D13; the count of draws is the model's, log entry 8. -/
def Obligations.RandomIsMasked : Prop :=
  ∀ (s : State) (x : Ix) (kk : Byte), ∃ t r, exec (.rnd x kk) s = .next t ∧
    t.readV x = r &&& kk ∧ r = Config.freeByte s.draws ∧ t.draws = s.draws + 1 ∧ t.pc = s.pc + 2 ∧
    OnlyChanges (fun p => p = .reg x ∨ p = .pc ∨ p = .draws) s t

/-! ### Index register and memory -/

/-- LD I,nnn and LD F,Vx set I, to nnn and to Vx * 5, advance pc by 2 and change nothing else. -/
def Obligations.IndexLoads : Prop :=
  ∀ (s : State) (nnn : Addr12) (x : Ix),
    (∃ t, exec (.ldI nnn) s = .next t ∧ t.I.toNat = nnn.toNat ∧ t.pc = s.pc + 2 ∧
      OnlyChanges (fun p => p = .index ∨ p = .pc) s t) ∧
    (∃ t, exec (.ldFVx x) s = .next t ∧ t.I.toNat = (s.readV x).toNat * 5 ∧ t.pc = s.pc + 2 ∧
      OnlyChanges (fun p => p = .index ∨ p = .pc) s t)

/-- ADD I,Vx adds Vx to I modulo 65536 and sets no flag. General knowledge of the spec, K5, D29; log entry 30. -/
def Obligations.IndexAddWraps : Prop :=
  ∀ (s : State) (x : Ix), ∃ t, exec (.addIVx x) s = .next t ∧
    t.I.toNat = (s.I.toNat + (s.readV x).toNat) % 65536 ∧ t.pc = s.pc + 2 ∧
    OnlyChanges (fun p => p = .index ∨ p = .pc) s t

/-- LD B,Vx stores the hundreds, tens and ones digits of Vx at I, I + 1 and I + 2 when they are inside memory and
no font-region write is refused; a byte of the font region is kept when P_FONT_WRITE is Discard. Rests on D9. -/
def Obligations.BcdStoresDigits : Prop :=
  ∀ (s : State) (x : Ix), s.dataAddr + 2 ≤ 0xFFF →
    (0x4F < s.dataAddr ∨ s.params.fontWrite ≠ .refuse) →
    ∃ t, exec (.ldBVx x) s = .next t ∧
      (∀ k : Nat, k < 3 → (s.dataAddr + k ≤ 0x4F → s.params.fontWrite = .store) →
        (t.byteAt (s.dataAddr + k)).toNat = (s.readV x).toNat / 10 ^ (2 - k) % 10) ∧
      (∀ a : Nat, a ≤ 0x4F → s.params.fontWrite = .discard → t.byteAt a = s.byteAt a) ∧
      t.pc = s.pc + 2 ∧ OnlyChanges (fun p => p.isByteOf s.dataAddr 3 ∨ p = .pc) s t

/-- LD [I],Vx stores V0..Vx at I..I + x when they are inside memory and no font-region write is refused; a byte of
the font region is kept when P_FONT_WRITE is Discard; I is unchanged. Rests on D9 and D16. -/
def Obligations.BlockStore : Prop :=
  ∀ (s : State) (x : Ix), s.dataAddr + x.val ≤ 0xFFF →
    (0x4F < s.dataAddr ∨ s.params.fontWrite ≠ .refuse) →
    ∃ t, exec (.ldMemVx x) s = .next t ∧
      (∀ k : Ix, k ≤ x → (s.dataAddr + k.val ≤ 0x4F → s.params.fontWrite = .store) →
        t.byteAt (s.dataAddr + k.val) = s.readV k) ∧
      (∀ a : Nat, a ≤ 0x4F → s.params.fontWrite = .discard → t.byteAt a = s.byteAt a) ∧
      t.pc = s.pc + 2 ∧ OnlyChanges (fun p => p.isByteOf s.dataAddr (x.val + 1) ∨ p = .pc) s t

/-- LD Vx,[I] loads V0..Vx from I..I + x when they are inside memory; I is unchanged. Rests on D16. -/
def Obligations.BlockLoad : Prop :=
  ∀ (s : State) (x : Ix), s.dataAddr + x.val ≤ 0xFFF →
    ∃ t, exec (.ldVxMem x) s = .next t ∧
      (∀ k : Ix, k ≤ x → t.readV k = s.byteAt (s.dataAddr + k.val)) ∧ t.pc = s.pc + 2 ∧
      OnlyChanges (fun p => (∃ k : Ix, k ≤ x ∧ p = .reg k) ∨ p = .pc) s t

/-- LD B, LD [I], LD Vx,[I] and DRW with n above 0 that reach past 0xFFF halt with OutOfBoundsAddress and the
lowest address outside, and make no write. Rests on D6 and D7. -/
def Obligations.AccessOutsideMemoryHalts : Prop :=
  ∀ (s : State) (x y n : Ix),
    (0xFFF < s.dataAddr + 2 → exec (.ldBVx x) s =
      .next (s.haltedBy (.outOfBoundsAddress (firstOutside s.dataAddr)))) ∧
    (0xFFF < s.dataAddr + x.val → exec (.ldMemVx x) s =
      .next (s.haltedBy (.outOfBoundsAddress (firstOutside s.dataAddr)))) ∧
    (0xFFF < s.dataAddr + x.val → exec (.ldVxMem x) s =
      .next (s.haltedBy (.outOfBoundsAddress (firstOutside s.dataAddr)))) ∧
    (n ≠ 0 → 0x1000 < s.dataAddr + n.val → exec (.drw x y n) s =
      .next (s.haltedBy (.outOfBoundsAddress (firstOutside s.dataAddr))))

/-- With P_FONT_WRITE Refuse, LD B and LD [I] from an I in the font region enter the model-only refusal with that
address and make no write. Rests on D9 and D31. -/
def Obligations.FontWriteRefused : Prop :=
  ∀ (s : State) (x : Ix), s.params.fontWrite = .refuse → s.dataAddr ≤ 0x4F →
    exec (.ldBVx x) s = .next (s.refusedBy (.fontRegionWrite s.dataAddr)) ∧
    exec (.ldMemVx x) s = .next (s.refusedBy (.fontRegionWrite s.dataAddr))

/-! ### Display -/

/-- CLS turns every pixel off, leaves dirty as it was or true, advances pc by 2 and changes nothing else. The free
dirty rests on D14; the count of draws is the model's, log entry 10. -/
def Obligations.ClearScreen : Prop :=
  ∀ s : State, ∃ t, exec .cls s = .next t ∧ (∀ c r, t.pixel c r = false) ∧
    (t.dirty = s.dirty ∨ t.dirty = true) ∧ t.pc = s.pc + 2 ∧
    OnlyChanges (fun p => p.isPixel ∨ p = .dirty ∨ p = .pc ∨ p = .draws) s t

/-- DRW toggles exactly the pixels under the sprite's set bits, wrapped on both axes, and none twice; VF is 1
exactly when a lit pixel was among them; dirty is set; with n = 0 nothing is toggled and any I will do. The
snapshot of VF as a coordinate rests on D5 and n = 0 on D15; that no pixel is toggled twice is derived in R184. -/
def Obligations.DrawXorsSprite : Prop :=
  ∀ (s : State) (x y n : Ix), (n = 0 ∨ s.dataAddr + n.val ≤ 0x1000) →
    ∃ t, exec (.drw x y n) s = .next t ∧
      (∀ c r, (SpriteCovers s x y n c r → t.pixel c r = !s.pixel c r) ∧
        (¬ SpriteCovers s x y n c r → t.pixel c r = s.pixel c r)) ∧
      (SpriteOverlaps s x y n → t.readV 15 = 1) ∧ (¬ SpriteOverlaps s x y n → t.readV 15 = 0) ∧
      t.dirty = true ∧ t.pc = s.pc + 2 ∧
      OnlyChanges (fun p => p.isPixel ∨ p = .reg 15 ∨ p = .dirty ∨ p = .pc) s t

/-- Drawing the same sprite at the same place again restores the screen, and VF is then 1 exactly when a set bit of
the sprite fell on a pixel that was off before the first draw (R184's own "exactly when the sprite has at least one
set bit" holds only where no covered pixel was lit; log entry 35). VF is set to any v in between, so that a
coordinate held in VF can be given back. -/
def Obligations.DrawTwiceRestores : Prop :=
  ∀ (s t : State) (x y n : Ix) (v : Byte), (n = 0 ∨ s.dataAddr + n.val ≤ 0x1000) →
    exec (.drw x y n) s = .next t →
    (t.writeFlag v).readV x = s.readV x → (t.writeFlag v).readV y = s.readV y →
    ∃ u, exec (.drw x y n) (t.writeFlag v) = .next u ∧ (∀ c r, u.pixel c r = s.pixel c r) ∧
      (u.readV 15 = 1 ↔ ∃ c r, SpriteCovers s x y n c r ∧ s.pixel c r = false)

/-! ### Keypad and timers -/

/-- SKP and SKNP with Vx at most 0xF add 4 to pc when key Vx is pressed, or not pressed, and 2 otherwise, and
change nothing else. -/
def Obligations.KeySkips : Prop :=
  ∀ (s : State) (x k : Ix), (s.readV x).toNat = k.val →
    (∃ t, exec (.skp x) s = .next t ∧
      t.pc = (if s.keys[k] = true then s.pc + 4 else s.pc + 2) ∧ OnlyChanges (fun p => p = .pc) s t) ∧
    (∃ t, exec (.sknp x) s = .next t ∧
      t.pc = (if s.keys[k] = false then s.pc + 4 else s.pc + 2) ∧ OnlyChanges (fun p => p = .pc) s t)

/-- SKP and SKNP with Vx above 0xF enter the model-only refusal with that value, and no other state changes.
Rests on D11 and D31. -/
def Obligations.KeyIndexRefused : Prop :=
  ∀ (s : State) (x : Ix), 0xF < (s.readV x).toNat →
    exec (.skp x) s = .next (s.refusedBy (.keyIndexOutOfRange (s.readV x))) ∧
    exec (.sknp x) s = .next (s.refusedBy (.keyIndexOutOfRange (s.readV x)))

/-- LD Vx,K with a key pressed writes the index of a pressed key, whichever the free value picks, and advances pc;
with none pressed it changes nothing, pc included. The free choice rests on D12; the count of draws is the model's,
log entry 9. -/
def Obligations.KeyWait : Prop :=
  ∀ (s : State) (x : Ix),
    ((∃ k : Ix, s.keys[k] = true) → ∃ t, exec (.ldVxK x) s = .next t ∧
      (∃ k : Ix, s.keys[k] = true ∧ (t.readV x).toNat = k.val) ∧ t.pc = s.pc + 2 ∧
      OnlyChanges (fun p => p = .reg x ∨ p = .pc ∨ p = .draws) s t) ∧
    ((∀ k : Ix, s.keys[k] = false) → exec (.ldVxK x) s = .next s)

/-- LD Vx,DT reads the delay timer, LD DT,Vx and LD ST,Vx write the timers; each advances pc by 2 and changes
nothing else. -/
def Obligations.TimerTransfers : Prop :=
  ∀ (s : State) (x : Ix),
    (∃ t, exec (.ldVxDt x) s = .next t ∧ t.readV x = s.DT ∧ t.pc = s.pc + 2 ∧
      OnlyChanges (fun p => p = .reg x ∨ p = .pc) s t) ∧
    (∃ t, exec (.ldDtVx x) s = .next t ∧ t.DT = s.readV x ∧ t.pc = s.pc + 2 ∧
      OnlyChanges (fun p => p = .delay ∨ p = .pc) s t) ∧
    (∃ t, exec (.ldStVx x) s = .next t ∧ t.ST = s.readV x ∧ t.pc = s.pc + 2 ∧
      OnlyChanges (fun p => p = .sound ∨ p = .pc) s t)
end

