-- ==== Sys2Proof/Laws/Decode.lean ====
section
/-! SUPPORT. The fields of an encoded word are the operands it was encoded from, and Unknown carries the word
itself (30_encoding.md R82, R85, R87); the bytes and the masks of a word as numbers. -/

namespace Sys2Proof

theorem encNnn_toNat (op : BitVec 4) (nnn : Addr12) : (encNnn op nnn).toNat = op.toNat * 4096 + nnn.toNat := by
  have := nnn.isLt
  simp only [encNnn, BitVec.toNat_append]
  rw [← Nat.shiftLeft_add_eq_or_of_lt this, Nat.shiftLeft_eq]

theorem encXkk_toNat (op : BitVec 4) (x : Ix) (kk : Byte) :
    (encXkk op x kk).toNat = op.toNat * 4096 + x.val * 256 + kk.toNat := by
  have h₁ := kk.isLt
  have h₂ : (BitVec.ofFin (w := 4) x).toNat < 2 ^ 4 := x.isLt
  have hx : (BitVec.ofFin (w := 4) x).toNat = x.val := rfl
  simp only [encXkk, BitVec.toNat_append]
  rw [← Nat.shiftLeft_add_eq_or_of_lt h₁, ← Nat.shiftLeft_add_eq_or_of_lt h₂, Nat.shiftLeft_eq,
    Nat.shiftLeft_eq, hx]
  omega

theorem encXyn_toNat (op : BitVec 4) (x y n : Ix) :
    (encXyn op x y n).toNat = op.toNat * 4096 + x.val * 256 + y.val * 16 + n.val := by
  have h₁ : (BitVec.ofFin (w := 4) n).toNat < 2 ^ 4 := n.isLt
  have h₂ : (BitVec.ofFin (w := 4) y).toNat < 2 ^ 4 := y.isLt
  have h₃ : (BitVec.ofFin (w := 4) x).toNat < 2 ^ 4 := x.isLt
  have hx : (BitVec.ofFin (w := 4) x).toNat = x.val := rfl
  have hy : (BitVec.ofFin (w := 4) y).toNat = y.val := rfl
  have hn : (BitVec.ofFin (w := 4) n).toNat = n.val := rfl
  simp only [encXyn, BitVec.toNat_append]
  rw [← Nat.shiftLeft_add_eq_or_of_lt h₁, ← Nat.shiftLeft_add_eq_or_of_lt h₂,
    ← Nat.shiftLeft_add_eq_or_of_lt h₃, Nat.shiftLeft_eq, Nat.shiftLeft_eq, Nat.shiftLeft_eq,
    hx, hy, hn]
  omega

theorem opField_toNat (w : Word) : (opField w).toNat = w.toNat / 4096 := by
  have := w.isLt
  simp only [opField, BitVec.extractLsb'_toNat, Nat.shiftRight_eq_div_pow]
  omega

theorem xField_val (w : Word) : (xField w).val = w.toNat / 256 % 16 := by
  simp only [xField, BitVec.val_toFin, BitVec.extractLsb'_toNat, Nat.shiftRight_eq_div_pow]

theorem yField_val (w : Word) : (yField w).val = w.toNat / 16 % 16 := by
  simp only [yField, BitVec.val_toFin, BitVec.extractLsb'_toNat, Nat.shiftRight_eq_div_pow]

theorem nField_val (w : Word) : (nField w).val = w.toNat % 16 := by
  simp only [nField, BitVec.val_toFin, BitVec.extractLsb'_toNat, Nat.shiftRight_eq_div_pow]
  omega

theorem kkField_toNat (w : Word) : (kkField w).toNat = w.toNat % 256 := by
  simp only [kkField, BitVec.extractLsb'_toNat, Nat.shiftRight_eq_div_pow]
  omega

theorem nnnField_toNat (w : Word) : (nnnField w).toNat = w.toNat % 4096 := by
  simp only [nnnField, BitVec.extractLsb'_toNat, Nat.shiftRight_eq_div_pow]
  omega

/-! ### Fields of encoded words -/

theorem opField_encNnn (op : BitVec 4) (nnn : Addr12) : opField (encNnn op nnn) = op := by
  apply BitVec.eq_of_toNat_eq
  rw [opField_toNat, encNnn_toNat]
  omega

theorem nnnField_encNnn (op : BitVec 4) (nnn : Addr12) : nnnField (encNnn op nnn) = nnn := by
  apply BitVec.eq_of_toNat_eq
  rw [nnnField_toNat, encNnn_toNat]
  omega

theorem opField_encXkk (op : BitVec 4) (x : Ix) (kk : Byte) : opField (encXkk op x kk) = op := by
  apply BitVec.eq_of_toNat_eq
  rw [opField_toNat, encXkk_toNat]
  omega

theorem xField_encXkk (op : BitVec 4) (x : Ix) (kk : Byte) : xField (encXkk op x kk) = x := by
  apply Fin.ext
  rw [xField_val, encXkk_toNat]
  omega

theorem kkField_encXkk (op : BitVec 4) (x : Ix) (kk : Byte) : kkField (encXkk op x kk) = kk := by
  apply BitVec.eq_of_toNat_eq
  rw [kkField_toNat, encXkk_toNat]
  omega

theorem opField_encXyn (op : BitVec 4) (x y n : Ix) : opField (encXyn op x y n) = op := by
  apply BitVec.eq_of_toNat_eq
  rw [opField_toNat, encXyn_toNat]
  omega

theorem xField_encXyn (op : BitVec 4) (x y n : Ix) : xField (encXyn op x y n) = x := by
  apply Fin.ext
  rw [xField_val, encXyn_toNat]
  omega

theorem yField_encXyn (op : BitVec 4) (x y n : Ix) : yField (encXyn op x y n) = y := by
  apply Fin.ext
  rw [yField_val, encXyn_toNat]
  omega

theorem nField_encXyn (op : BitVec 4) (x y n : Ix) : nField (encXyn op x y n) = n := by
  apply Fin.ext
  rw [nField_val, encXyn_toNat]
  omega

/-! ### Bytes and masks of a word -/

theorem hiByte_toNat (w : Word) : (hiByte w).toNat = w.toNat / 256 := by
  have := w.isLt
  simp only [hiByte, BitVec.extractLsb'_toNat, Nat.shiftRight_eq_div_pow]
  omega

theorem loByte_toNat (w : Word) : (loByte w).toNat = w.toNat % 256 := by
  simp only [loByte, BitVec.extractLsb'_toNat, Nat.shiftRight_eq_div_pow]
  omega

/-- A word is its high byte times 256 plus its low byte (20_memory.md R55). -/
theorem wordOfBytes_toNat (hi lo : Byte) : (wordOfBytes hi lo).toNat = hi.toNat * 256 + lo.toNat := by
  rw [wordOfBytes, BitVec.toNat_append, ← Nat.shiftLeft_add_eq_or_of_lt lo.isLt, Nat.shiftLeft_eq]

/-- The two bytes of a word make the word. -/
theorem wordOfBytes_hiByte_loByte (w : Word) : wordOfBytes (hiByte w) (loByte w) = w := by
  apply BitVec.eq_of_toNat_eq
  rw [wordOfBytes_toNat, hiByte_toNat, loByte_toNat]
  omega

theorem and_wordOfBytes (w : Word) (hi lo : Byte) :
    (w &&& wordOfBytes hi lo).toNat = (hiByte w &&& hi).toNat * 256 + (loByte w &&& lo).toNat := by
  conv_lhs => rw [← wordOfBytes_hiByte_loByte w]
  rw [wordOfBytes, wordOfBytes, BitVec.and_append]
  exact wordOfBytes_toNat _ _

theorem byte_and_F0 : ∀ b : Byte, (b &&& 0xF0#8).toNat = b.toNat / 16 * 16 := by decide

theorem byte_and_0F : ∀ b : Byte, (b &&& 0x0F#8).toNat = b.toNat % 16 := by decide

theorem byte_and_FF : ∀ b : Byte, b &&& 0xFF#8 = b := by decide

theorem and_F000_toNat (w : Word) : (w &&& (0xF000 : Word)).toNat = w.toNat / 4096 * 4096 := by
  rw [show (0xF000 : Word) = wordOfBytes 0xF0#8 0x00#8 from rfl, and_wordOfBytes, byte_and_F0, hiByte_toNat]
  simp
  omega

theorem and_F00F_toNat (w : Word) :
    (w &&& (0xF00F : Word)).toNat = w.toNat / 4096 * 4096 + w.toNat % 16 := by
  rw [show (0xF00F : Word) = wordOfBytes 0xF0#8 0x0F#8 from rfl, and_wordOfBytes, byte_and_F0, byte_and_0F,
    hiByte_toNat, loByte_toNat]
  omega

theorem and_F0FF_toNat (w : Word) :
    (w &&& (0xF0FF : Word)).toNat = w.toNat / 4096 * 4096 + w.toNat % 256 := by
  rw [show (0xF0FF : Word) = wordOfBytes 0xF0#8 0xFF#8 from rfl, and_wordOfBytes, byte_and_F0, byte_and_FF,
    hiByte_toNat, loByte_toNat]
  omega

theorem and_FF0F_toNat (w : Word) :
    (w &&& (0xFF0F : Word)).toNat = w.toNat / 256 * 256 + w.toNat % 16 := by
  rw [show (0xFF0F : Word) = wordOfBytes 0xFF#8 0x0F#8 from rfl, and_wordOfBytes, byte_and_FF, byte_and_0F,
    hiByte_toNat, loByte_toNat]
  omega

/-! ### Unknown -/

/-- Unknown carries the word that was decoded (R87, R88). -/
theorem decode_unknown {addI : Bool} {w w' : Word} (h : decode addI w = .unknown w') : w' = w := by
  unfold decode decodeClass0 decodeClass8 decodeClassE decodeClassF at h
  (repeat' split at h) <;> first | exact (Decoded.unknown.inj h).symm | cases h

/-- ADD I,Vx is decoded only by a machine that has it (R95). -/
theorem decode_addIVx {addI : Bool} {w : Word} {x : Ix} (h : decode addI w = .instr (.addIVx x)) :
    addI = true := by
  unfold decode decodeClass0 decodeClass8 decodeClassE decodeClassF at h
  (repeat' split at h) <;> first | assumption | cases h

end Sys2Proof
end

