-- ==== Sys2Proof/Laws/State.lean ====
section
/-! SUPPORT. One lemma per field per update of State, true by rfl, so that no proof unfolds a record update;
and the updates that are only combinations of these, rewritten to them. -/

namespace Sys2Proof.Machine.State

variable (s : State)

/-! ### writeV -/

@[simp] theorem writeV_mem (x : Ix) (v : Byte) : (s.writeV x v).mem = s.mem := rfl
@[simp] theorem writeV_V (x : Ix) (v : Byte) : (s.writeV x v).V = s.V.set x v := rfl
@[simp] theorem writeV_I (x : Ix) (v : Byte) : (s.writeV x v).I = s.I := rfl
@[simp] theorem writeV_pc (x : Ix) (v : Byte) : (s.writeV x v).pc = s.pc := rfl
@[simp] theorem writeV_sp (x : Ix) (v : Byte) : (s.writeV x v).sp = s.sp := rfl
@[simp] theorem writeV_stack (x : Ix) (v : Byte) : (s.writeV x v).stack = s.stack := rfl
@[simp] theorem writeV_DT (x : Ix) (v : Byte) : (s.writeV x v).DT = s.DT := rfl
@[simp] theorem writeV_ST (x : Ix) (v : Byte) : (s.writeV x v).ST = s.ST := rfl
@[simp] theorem writeV_keys (x : Ix) (v : Byte) : (s.writeV x v).keys = s.keys := rfl
@[simp] theorem writeV_fb (x : Ix) (v : Byte) : (s.writeV x v).fb = s.fb := rfl
@[simp] theorem writeV_dirty (x : Ix) (v : Byte) : (s.writeV x v).dirty = s.dirty := rfl
@[simp] theorem writeV_run (x : Ix) (v : Byte) : (s.writeV x v).run = s.run := rfl
@[simp] theorem writeV_params (x : Ix) (v : Byte) : (s.writeV x v).params = s.params := rfl
@[simp] theorem writeV_reports (x : Ix) (v : Byte) : (s.writeV x v).reports = s.reports := rfl
@[simp] theorem writeV_draws (x : Ix) (v : Byte) : (s.writeV x v).draws = s.draws := rfl

/-! ### setI -/

@[simp] theorem setI_mem (v : Word) : (s.setI v).mem = s.mem := rfl
@[simp] theorem setI_V (v : Word) : (s.setI v).V = s.V := rfl
@[simp] theorem setI_I (v : Word) : (s.setI v).I = v := rfl
@[simp] theorem setI_pc (v : Word) : (s.setI v).pc = s.pc := rfl
@[simp] theorem setI_sp (v : Word) : (s.setI v).sp = s.sp := rfl
@[simp] theorem setI_stack (v : Word) : (s.setI v).stack = s.stack := rfl
@[simp] theorem setI_DT (v : Word) : (s.setI v).DT = s.DT := rfl
@[simp] theorem setI_ST (v : Word) : (s.setI v).ST = s.ST := rfl
@[simp] theorem setI_keys (v : Word) : (s.setI v).keys = s.keys := rfl
@[simp] theorem setI_fb (v : Word) : (s.setI v).fb = s.fb := rfl
@[simp] theorem setI_dirty (v : Word) : (s.setI v).dirty = s.dirty := rfl
@[simp] theorem setI_run (v : Word) : (s.setI v).run = s.run := rfl
@[simp] theorem setI_params (v : Word) : (s.setI v).params = s.params := rfl
@[simp] theorem setI_reports (v : Word) : (s.setI v).reports = s.reports := rfl
@[simp] theorem setI_draws (v : Word) : (s.setI v).draws = s.draws := rfl

/-! ### setPc -/

@[simp] theorem setPc_mem (w : Word) : (s.setPc w).mem = s.mem := rfl
@[simp] theorem setPc_V (w : Word) : (s.setPc w).V = s.V := rfl
@[simp] theorem setPc_I (w : Word) : (s.setPc w).I = s.I := rfl
@[simp] theorem setPc_pc (w : Word) : (s.setPc w).pc = w := rfl
@[simp] theorem setPc_sp (w : Word) : (s.setPc w).sp = s.sp := rfl
@[simp] theorem setPc_stack (w : Word) : (s.setPc w).stack = s.stack := rfl
@[simp] theorem setPc_DT (w : Word) : (s.setPc w).DT = s.DT := rfl
@[simp] theorem setPc_ST (w : Word) : (s.setPc w).ST = s.ST := rfl
@[simp] theorem setPc_keys (w : Word) : (s.setPc w).keys = s.keys := rfl
@[simp] theorem setPc_fb (w : Word) : (s.setPc w).fb = s.fb := rfl
@[simp] theorem setPc_dirty (w : Word) : (s.setPc w).dirty = s.dirty := rfl
@[simp] theorem setPc_run (w : Word) : (s.setPc w).run = s.run := rfl
@[simp] theorem setPc_params (w : Word) : (s.setPc w).params = s.params := rfl
@[simp] theorem setPc_reports (w : Word) : (s.setPc w).reports = s.reports := rfl
@[simp] theorem setPc_draws (w : Word) : (s.setPc w).draws = s.draws := rfl

/-! ### loadRegs -/

@[simp] theorem loadRegs_mem (bs : List Byte) : (s.loadRegs bs).mem = s.mem := rfl
@[simp] theorem loadRegs_V (bs : List Byte) : (s.loadRegs bs).V = Vector.ofFn fun k : Ix => bs.getD k.val s.V[k] := rfl
@[simp] theorem loadRegs_I (bs : List Byte) : (s.loadRegs bs).I = s.I := rfl
@[simp] theorem loadRegs_pc (bs : List Byte) : (s.loadRegs bs).pc = s.pc := rfl
@[simp] theorem loadRegs_sp (bs : List Byte) : (s.loadRegs bs).sp = s.sp := rfl
@[simp] theorem loadRegs_stack (bs : List Byte) : (s.loadRegs bs).stack = s.stack := rfl
@[simp] theorem loadRegs_DT (bs : List Byte) : (s.loadRegs bs).DT = s.DT := rfl
@[simp] theorem loadRegs_ST (bs : List Byte) : (s.loadRegs bs).ST = s.ST := rfl
@[simp] theorem loadRegs_keys (bs : List Byte) : (s.loadRegs bs).keys = s.keys := rfl
@[simp] theorem loadRegs_fb (bs : List Byte) : (s.loadRegs bs).fb = s.fb := rfl
@[simp] theorem loadRegs_dirty (bs : List Byte) : (s.loadRegs bs).dirty = s.dirty := rfl
@[simp] theorem loadRegs_run (bs : List Byte) : (s.loadRegs bs).run = s.run := rfl
@[simp] theorem loadRegs_params (bs : List Byte) : (s.loadRegs bs).params = s.params := rfl
@[simp] theorem loadRegs_reports (bs : List Byte) : (s.loadRegs bs).reports = s.reports := rfl
@[simp] theorem loadRegs_draws (bs : List Byte) : (s.loadRegs bs).draws = s.draws := rfl

/-! ### countDraw -/

@[simp] theorem countDraw_mem : (s.countDraw).mem = s.mem := rfl
@[simp] theorem countDraw_V : (s.countDraw).V = s.V := rfl
@[simp] theorem countDraw_I : (s.countDraw).I = s.I := rfl
@[simp] theorem countDraw_pc : (s.countDraw).pc = s.pc := rfl
@[simp] theorem countDraw_sp : (s.countDraw).sp = s.sp := rfl
@[simp] theorem countDraw_stack : (s.countDraw).stack = s.stack := rfl
@[simp] theorem countDraw_DT : (s.countDraw).DT = s.DT := rfl
@[simp] theorem countDraw_ST : (s.countDraw).ST = s.ST := rfl
@[simp] theorem countDraw_keys : (s.countDraw).keys = s.keys := rfl
@[simp] theorem countDraw_fb : (s.countDraw).fb = s.fb := rfl
@[simp] theorem countDraw_dirty : (s.countDraw).dirty = s.dirty := rfl
@[simp] theorem countDraw_run : (s.countDraw).run = s.run := rfl
@[simp] theorem countDraw_params : (s.countDraw).params = s.params := rfl
@[simp] theorem countDraw_reports : (s.countDraw).reports = s.reports := rfl
@[simp] theorem countDraw_draws : (s.countDraw).draws = s.draws + 1 := rfl

/-! ### raise -/

@[simp] theorem raise_mem (e : Raise) : (s.raise e).mem = s.mem := rfl
@[simp] theorem raise_V (e : Raise) : (s.raise e).V = s.V := rfl
@[simp] theorem raise_I (e : Raise) : (s.raise e).I = s.I := rfl
@[simp] theorem raise_pc (e : Raise) : (s.raise e).pc = s.pc := rfl
@[simp] theorem raise_sp (e : Raise) : (s.raise e).sp = s.sp := rfl
@[simp] theorem raise_stack (e : Raise) : (s.raise e).stack = s.stack := rfl
@[simp] theorem raise_DT (e : Raise) : (s.raise e).DT = s.DT := rfl
@[simp] theorem raise_ST (e : Raise) : (s.raise e).ST = s.ST := rfl
@[simp] theorem raise_keys (e : Raise) : (s.raise e).keys = s.keys := rfl
@[simp] theorem raise_fb (e : Raise) : (s.raise e).fb = s.fb := rfl
@[simp] theorem raise_dirty (e : Raise) : (s.raise e).dirty = s.dirty := rfl
@[simp] theorem raise_run (e : Raise) : (s.raise e).run = e.status := rfl
@[simp] theorem raise_params (e : Raise) : (s.raise e).params = s.params := rfl
@[simp] theorem raise_reports (e : Raise) : (s.raise e).reports = s.reports := rfl
@[simp] theorem raise_draws (e : Raise) : (s.raise e).draws = s.draws := rfl

/-! ### reportUnknown -/

@[simp] theorem reportUnknown_mem (w : Word) : (s.reportUnknown w).mem = s.mem := rfl
@[simp] theorem reportUnknown_V (w : Word) : (s.reportUnknown w).V = s.V := rfl
@[simp] theorem reportUnknown_I (w : Word) : (s.reportUnknown w).I = s.I := rfl
@[simp] theorem reportUnknown_pc (w : Word) : (s.reportUnknown w).pc = s.pc + 2 := rfl
@[simp] theorem reportUnknown_sp (w : Word) : (s.reportUnknown w).sp = s.sp := rfl
@[simp] theorem reportUnknown_stack (w : Word) : (s.reportUnknown w).stack = s.stack := rfl
@[simp] theorem reportUnknown_DT (w : Word) : (s.reportUnknown w).DT = s.DT := rfl
@[simp] theorem reportUnknown_ST (w : Word) : (s.reportUnknown w).ST = s.ST := rfl
@[simp] theorem reportUnknown_keys (w : Word) : (s.reportUnknown w).keys = s.keys := rfl
@[simp] theorem reportUnknown_fb (w : Word) : (s.reportUnknown w).fb = s.fb := rfl
@[simp] theorem reportUnknown_dirty (w : Word) : (s.reportUnknown w).dirty = s.dirty := rfl
@[simp] theorem reportUnknown_run (w : Word) : (s.reportUnknown w).run = s.run := rfl
@[simp] theorem reportUnknown_params (w : Word) : (s.reportUnknown w).params = s.params := rfl
@[simp] theorem reportUnknown_reports (w : Word) : (s.reportUnknown w).reports = s.reports ++ [⟨s.pc, w⟩] := rfl
@[simp] theorem reportUnknown_draws (w : Word) : (s.reportUnknown w).draws = s.draws := rfl

/-! ### tick -/

@[simp] theorem tick_mem : (s.tick).mem = s.mem := rfl
@[simp] theorem tick_V : (s.tick).V = s.V := rfl
@[simp] theorem tick_I : (s.tick).I = s.I := rfl
@[simp] theorem tick_pc : (s.tick).pc = s.pc := rfl
@[simp] theorem tick_sp : (s.tick).sp = s.sp := rfl
@[simp] theorem tick_stack : (s.tick).stack = s.stack := rfl
@[simp] theorem tick_DT : (s.tick).DT = countDown s.DT := rfl
@[simp] theorem tick_ST : (s.tick).ST = countDown s.ST := rfl
@[simp] theorem tick_keys : (s.tick).keys = s.keys := rfl
@[simp] theorem tick_fb : (s.tick).fb = s.fb := rfl
@[simp] theorem tick_dirty : (s.tick).dirty = s.dirty := rfl
@[simp] theorem tick_run : (s.tick).run = s.run := rfl
@[simp] theorem tick_params : (s.tick).params = s.params := rfl
@[simp] theorem tick_reports : (s.tick).reports = s.reports := rfl
@[simp] theorem tick_draws : (s.tick).draws = s.draws := rfl

/-! ### setKey -/

@[simp] theorem setKey_mem (k : Ix) (b : Bool) : (s.setKey k b).mem = s.mem := rfl
@[simp] theorem setKey_V (k : Ix) (b : Bool) : (s.setKey k b).V = s.V := rfl
@[simp] theorem setKey_I (k : Ix) (b : Bool) : (s.setKey k b).I = s.I := rfl
@[simp] theorem setKey_pc (k : Ix) (b : Bool) : (s.setKey k b).pc = s.pc := rfl
@[simp] theorem setKey_sp (k : Ix) (b : Bool) : (s.setKey k b).sp = s.sp := rfl
@[simp] theorem setKey_stack (k : Ix) (b : Bool) : (s.setKey k b).stack = s.stack := rfl
@[simp] theorem setKey_DT (k : Ix) (b : Bool) : (s.setKey k b).DT = s.DT := rfl
@[simp] theorem setKey_ST (k : Ix) (b : Bool) : (s.setKey k b).ST = s.ST := rfl
@[simp] theorem setKey_keys (k : Ix) (b : Bool) : (s.setKey k b).keys = s.keys.set k b := rfl
@[simp] theorem setKey_fb (k : Ix) (b : Bool) : (s.setKey k b).fb = s.fb := rfl
@[simp] theorem setKey_dirty (k : Ix) (b : Bool) : (s.setKey k b).dirty = s.dirty := rfl
@[simp] theorem setKey_run (k : Ix) (b : Bool) : (s.setKey k b).run = s.run := rfl
@[simp] theorem setKey_params (k : Ix) (b : Bool) : (s.setKey k b).params = s.params := rfl
@[simp] theorem setKey_reports (k : Ix) (b : Bool) : (s.setKey k b).reports = s.reports := rfl
@[simp] theorem setKey_draws (k : Ix) (b : Bool) : (s.setKey k b).draws = s.draws := rfl

/-! ### consumeFrame -/

@[simp] theorem consumeFrame_mem : (s.consumeFrame).mem = s.mem := rfl
@[simp] theorem consumeFrame_V : (s.consumeFrame).V = s.V := rfl
@[simp] theorem consumeFrame_I : (s.consumeFrame).I = s.I := rfl
@[simp] theorem consumeFrame_pc : (s.consumeFrame).pc = s.pc := rfl
@[simp] theorem consumeFrame_sp : (s.consumeFrame).sp = s.sp := rfl
@[simp] theorem consumeFrame_stack : (s.consumeFrame).stack = s.stack := rfl
@[simp] theorem consumeFrame_DT : (s.consumeFrame).DT = s.DT := rfl
@[simp] theorem consumeFrame_ST : (s.consumeFrame).ST = s.ST := rfl
@[simp] theorem consumeFrame_keys : (s.consumeFrame).keys = s.keys := rfl
@[simp] theorem consumeFrame_fb : (s.consumeFrame).fb = s.fb := rfl
@[simp] theorem consumeFrame_dirty : (s.consumeFrame).dirty = false := rfl
@[simp] theorem consumeFrame_run : (s.consumeFrame).run = s.run := rfl
@[simp] theorem consumeFrame_params : (s.consumeFrame).params = s.params := rfl
@[simp] theorem consumeFrame_reports : (s.consumeFrame).reports = s.reports := rfl
@[simp] theorem consumeFrame_draws : (s.consumeFrame).draws = s.draws := rfl

/-! ### setMem -/

@[simp] theorem setMem_mem (m : Memory) : (s.setMem m).mem = m := rfl
@[simp] theorem setMem_V (m : Memory) : (s.setMem m).V = s.V := rfl
@[simp] theorem setMem_I (m : Memory) : (s.setMem m).I = s.I := rfl
@[simp] theorem setMem_pc (m : Memory) : (s.setMem m).pc = s.pc := rfl
@[simp] theorem setMem_sp (m : Memory) : (s.setMem m).sp = s.sp := rfl
@[simp] theorem setMem_stack (m : Memory) : (s.setMem m).stack = s.stack := rfl
@[simp] theorem setMem_DT (m : Memory) : (s.setMem m).DT = s.DT := rfl
@[simp] theorem setMem_ST (m : Memory) : (s.setMem m).ST = s.ST := rfl
@[simp] theorem setMem_keys (m : Memory) : (s.setMem m).keys = s.keys := rfl
@[simp] theorem setMem_fb (m : Memory) : (s.setMem m).fb = s.fb := rfl
@[simp] theorem setMem_dirty (m : Memory) : (s.setMem m).dirty = s.dirty := rfl
@[simp] theorem setMem_run (m : Memory) : (s.setMem m).run = s.run := rfl
@[simp] theorem setMem_params (m : Memory) : (s.setMem m).params = s.params := rfl
@[simp] theorem setMem_reports (m : Memory) : (s.setMem m).reports = s.reports := rfl
@[simp] theorem setMem_draws (m : Memory) : (s.setMem m).draws = s.draws := rfl

/-! ### setDT -/

@[simp] theorem setDT_mem (v : Byte) : (s.setDT v).mem = s.mem := rfl
@[simp] theorem setDT_V (v : Byte) : (s.setDT v).V = s.V := rfl
@[simp] theorem setDT_I (v : Byte) : (s.setDT v).I = s.I := rfl
@[simp] theorem setDT_pc (v : Byte) : (s.setDT v).pc = s.pc := rfl
@[simp] theorem setDT_sp (v : Byte) : (s.setDT v).sp = s.sp := rfl
@[simp] theorem setDT_stack (v : Byte) : (s.setDT v).stack = s.stack := rfl
@[simp] theorem setDT_DT (v : Byte) : (s.setDT v).DT = v := rfl
@[simp] theorem setDT_ST (v : Byte) : (s.setDT v).ST = s.ST := rfl
@[simp] theorem setDT_keys (v : Byte) : (s.setDT v).keys = s.keys := rfl
@[simp] theorem setDT_fb (v : Byte) : (s.setDT v).fb = s.fb := rfl
@[simp] theorem setDT_dirty (v : Byte) : (s.setDT v).dirty = s.dirty := rfl
@[simp] theorem setDT_run (v : Byte) : (s.setDT v).run = s.run := rfl
@[simp] theorem setDT_params (v : Byte) : (s.setDT v).params = s.params := rfl
@[simp] theorem setDT_reports (v : Byte) : (s.setDT v).reports = s.reports := rfl
@[simp] theorem setDT_draws (v : Byte) : (s.setDT v).draws = s.draws := rfl

/-! ### setST -/

@[simp] theorem setST_mem (v : Byte) : (s.setST v).mem = s.mem := rfl
@[simp] theorem setST_V (v : Byte) : (s.setST v).V = s.V := rfl
@[simp] theorem setST_I (v : Byte) : (s.setST v).I = s.I := rfl
@[simp] theorem setST_pc (v : Byte) : (s.setST v).pc = s.pc := rfl
@[simp] theorem setST_sp (v : Byte) : (s.setST v).sp = s.sp := rfl
@[simp] theorem setST_stack (v : Byte) : (s.setST v).stack = s.stack := rfl
@[simp] theorem setST_DT (v : Byte) : (s.setST v).DT = s.DT := rfl
@[simp] theorem setST_ST (v : Byte) : (s.setST v).ST = v := rfl
@[simp] theorem setST_keys (v : Byte) : (s.setST v).keys = s.keys := rfl
@[simp] theorem setST_fb (v : Byte) : (s.setST v).fb = s.fb := rfl
@[simp] theorem setST_dirty (v : Byte) : (s.setST v).dirty = s.dirty := rfl
@[simp] theorem setST_run (v : Byte) : (s.setST v).run = s.run := rfl
@[simp] theorem setST_params (v : Byte) : (s.setST v).params = s.params := rfl
@[simp] theorem setST_reports (v : Byte) : (s.setST v).reports = s.reports := rfl
@[simp] theorem setST_draws (v : Byte) : (s.setST v).draws = s.draws := rfl

/-! ### setFb -/

@[simp] theorem setFb_mem (f : Framebuffer) : (s.setFb f).mem = s.mem := rfl
@[simp] theorem setFb_V (f : Framebuffer) : (s.setFb f).V = s.V := rfl
@[simp] theorem setFb_I (f : Framebuffer) : (s.setFb f).I = s.I := rfl
@[simp] theorem setFb_pc (f : Framebuffer) : (s.setFb f).pc = s.pc := rfl
@[simp] theorem setFb_sp (f : Framebuffer) : (s.setFb f).sp = s.sp := rfl
@[simp] theorem setFb_stack (f : Framebuffer) : (s.setFb f).stack = s.stack := rfl
@[simp] theorem setFb_DT (f : Framebuffer) : (s.setFb f).DT = s.DT := rfl
@[simp] theorem setFb_ST (f : Framebuffer) : (s.setFb f).ST = s.ST := rfl
@[simp] theorem setFb_keys (f : Framebuffer) : (s.setFb f).keys = s.keys := rfl
@[simp] theorem setFb_fb (f : Framebuffer) : (s.setFb f).fb = f := rfl
@[simp] theorem setFb_dirty (f : Framebuffer) : (s.setFb f).dirty = s.dirty := rfl
@[simp] theorem setFb_run (f : Framebuffer) : (s.setFb f).run = s.run := rfl
@[simp] theorem setFb_params (f : Framebuffer) : (s.setFb f).params = s.params := rfl
@[simp] theorem setFb_reports (f : Framebuffer) : (s.setFb f).reports = s.reports := rfl
@[simp] theorem setFb_draws (f : Framebuffer) : (s.setFb f).draws = s.draws := rfl

/-! ### setDirty -/

@[simp] theorem setDirty_mem (d : Bool) : (s.setDirty d).mem = s.mem := rfl
@[simp] theorem setDirty_V (d : Bool) : (s.setDirty d).V = s.V := rfl
@[simp] theorem setDirty_I (d : Bool) : (s.setDirty d).I = s.I := rfl
@[simp] theorem setDirty_pc (d : Bool) : (s.setDirty d).pc = s.pc := rfl
@[simp] theorem setDirty_sp (d : Bool) : (s.setDirty d).sp = s.sp := rfl
@[simp] theorem setDirty_stack (d : Bool) : (s.setDirty d).stack = s.stack := rfl
@[simp] theorem setDirty_DT (d : Bool) : (s.setDirty d).DT = s.DT := rfl
@[simp] theorem setDirty_ST (d : Bool) : (s.setDirty d).ST = s.ST := rfl
@[simp] theorem setDirty_keys (d : Bool) : (s.setDirty d).keys = s.keys := rfl
@[simp] theorem setDirty_fb (d : Bool) : (s.setDirty d).fb = s.fb := rfl
@[simp] theorem setDirty_dirty (d : Bool) : (s.setDirty d).dirty = d := rfl
@[simp] theorem setDirty_run (d : Bool) : (s.setDirty d).run = s.run := rfl
@[simp] theorem setDirty_params (d : Bool) : (s.setDirty d).params = s.params := rfl
@[simp] theorem setDirty_reports (d : Bool) : (s.setDirty d).reports = s.reports := rfl
@[simp] theorem setDirty_draws (d : Bool) : (s.setDirty d).draws = s.draws := rfl

/-! ### Combinations -/

@[simp] theorem writeFlag_eq (v : Byte) : s.writeFlag v = s.writeV 15 v := rfl
@[simp] theorem advance_eq : s.advance = s.setPc (s.pc + 2) := rfl
@[simp] theorem skipIf_eq (c : Bool) : s.skipIf c = s.setPc (if c then s.pc + 4 else s.pc + 2) := rfl
@[simp] theorem finish_eq (x : Ix) (v : Byte) : s.finish x v = (s.writeV x v).setPc (s.pc + 2) := rfl
@[simp] theorem finishFlag_eq (f : Byte) (x : Ix) (v : Byte) :
    s.finishFlag f x v = ((s.writeV 15 f).writeV x v).setPc (s.pc + 2) := rfl

@[simp] theorem finishDraw_eq (d : Drawing) :
    s.finishDraw d =
      (((s.setFb d.fb).writeV 15 (flagByte d.collision)).setDirty true).setPc (s.pc + 2) := rfl

/-! ### Reads after updates -/

@[simp] theorem readV_writeV_self (x : Ix) (v : Byte) : (s.writeV x v).readV x = v := by
  simp [readV]

theorem readV_writeV_ne {x r : Ix} (v : Byte) (h : r ≠ x) : (s.writeV x v).readV r = s.readV r := by
  have : (x : Nat) ≠ r := fun e => h (Fin.ext e.symm)
  simp [readV, Vector.getElem_set_ne, this]

theorem readV_writeV (x r : Ix) (v : Byte) :
    (s.writeV x v).readV r = if r = x then v else s.readV r := by
  split
  · next h => simp [h]
  · next h => exact s.readV_writeV_ne v h

@[simp] theorem readV_setPc (w : Word) (r : Ix) : (s.setPc w).readV r = s.readV r := rfl
@[simp] theorem readV_setI (v : Word) (r : Ix) : (s.setI v).readV r = s.readV r := rfl
@[simp] theorem readV_countDraw (r : Ix) : s.countDraw.readV r = s.readV r := rfl
@[simp] theorem readV_raise (e : Raise) (r : Ix) : (s.raise e).readV r = s.readV r := rfl

@[simp] theorem readV_loadRegs (bs : List Byte) (r : Ix) :
    (s.loadRegs bs).readV r = bs.getD r.val (s.readV r) := by
  simp [readV]

@[simp] theorem readV_setMem (m : Memory) (r : Ix) : (s.setMem m).readV r = s.readV r := rfl
@[simp] theorem readV_setFb (f : Framebuffer) (r : Ix) : (s.setFb f).readV r = s.readV r := rfl
@[simp] theorem readV_setDirty (d : Bool) (r : Ix) : (s.setDirty d).readV r = s.readV r := rfl
@[simp] theorem byteAt_setMem (m : Memory) (a : Nat) : (s.setMem m).byteAt a = peek s.params.font a m := rfl
@[simp] theorem byteAt_setFb (f : Framebuffer) (a : Nat) : (s.setFb f).byteAt a = s.byteAt a := rfl
@[simp] theorem byteAt_setDirty (d : Bool) (a : Nat) : (s.setDirty d).byteAt a = s.byteAt a := rfl
@[simp] theorem byteAt_loadRegs (bs : List Byte) (a : Nat) : (s.loadRegs bs).byteAt a = s.byteAt a := by
  simp [byteAt]
@[simp] theorem pixel_setPc (w : Word) (c : Fin 64) (r : Fin 32) : (s.setPc w).pixel c r = s.pixel c r := rfl
@[simp] theorem pixel_writeV (x : Ix) (v : Byte) (c : Fin 64) (r : Fin 32) :
    (s.writeV x v).pixel c r = s.pixel c r := rfl
@[simp] theorem pixel_setDirty (d : Bool) (c : Fin 64) (r : Fin 32) :
    (s.setDirty d).pixel c r = s.pixel c r := rfl
@[simp] theorem pixel_setFb (f : Framebuffer) (c : Fin 64) (r : Fin 32) :
    (s.setFb f).pixel c r = pixelAt f c r := rfl

@[simp] theorem byteAt_setPc (w : Word) (a : Nat) : (s.setPc w).byteAt a = s.byteAt a := rfl
@[simp] theorem byteAt_writeV (x : Ix) (v : Byte) (a : Nat) : (s.writeV x v).byteAt a = s.byteAt a := rfl
@[simp] theorem dataAddr_writeV (x : Ix) (v : Byte) : (s.writeV x v).dataAddr = s.dataAddr := rfl

end Sys2Proof.Machine.State
end

