-- ==== Sys2Proof/Laws/Frame.lean ====
section
/-! SUPPORT. Frames: each update keeps every part but those it names, and frames compose. -/

namespace Sys2Proof.Machine

theorem Part.Same.refl (p : Part) (s : State) : p.Same s s := by
  cases p <;> rfl

theorem Part.Same.trans {p : Part} {s t u : State} (h₁ : p.Same s t) (h₂ : p.Same t u) : p.Same s u := by
  cases p <;> exact Eq.trans h₂ h₁

theorem OnlyChanges.refl (may : Part → Prop) (s : State) : OnlyChanges may s s :=
  fun p _ => Part.Same.refl p s

theorem OnlyChanges.trans {may : Part → Prop} {s t u : State} (h₁ : OnlyChanges may s t)
    (h₂ : OnlyChanges may t u) : OnlyChanges may s u :=
  fun p hp => (h₁ p hp).trans (h₂ p hp)

theorem OnlyChanges.mono {may may' : Part → Prop} {s t : State} (h : OnlyChanges may s t)
    (hm : ∀ p, may p → may' p) : OnlyChanges may' s t :=
  fun p hp => h p fun hq => hp (hm p hq)

theorem writeV_onlyChanges (s : State) (x : Ix) (v : Byte) :
    OnlyChanges (fun p => p = .reg x) s (s.writeV x v) := by
  intro p hp
  cases p with
  | reg r => exact s.readV_writeV_ne v fun h => hp (by rw [h])
  | _ => rfl

theorem setPc_onlyChanges (s : State) (w : Word) : OnlyChanges (fun p => p = .pc) s (s.setPc w) := by
  intro p hp
  cases p with
  | pc => exact absurd rfl hp
  | _ => rfl

theorem setI_onlyChanges (s : State) (v : Word) : OnlyChanges (fun p => p = .index) s (s.setI v) := by
  intro p hp
  cases p with
  | index => exact absurd rfl hp
  | _ => rfl

theorem countDraw_onlyChanges (s : State) : OnlyChanges (fun p => p = .draws) s s.countDraw := by
  intro p hp
  cases p with
  | draws => exact absurd rfl hp
  | _ => rfl

theorem raise_onlyChanges (s : State) (e : Raise) : OnlyChanges (fun p => p = .run) s (s.raise e) := by
  intro p hp
  cases p with
  | run => exact absurd rfl hp
  | _ => rfl

theorem setDT_onlyChanges (s : State) (v : Byte) : OnlyChanges (fun p => p = .delay) s (s.setDT v) := by
  intro p hp
  cases p with
  | delay => exact absurd rfl hp
  | _ => rfl

theorem setST_onlyChanges (s : State) (v : Byte) : OnlyChanges (fun p => p = .sound) s (s.setST v) := by
  intro p hp
  cases p with
  | sound => exact absurd rfl hp
  | _ => rfl

theorem setDirty_onlyChanges (s : State) (d : Bool) : OnlyChanges (fun p => p = .dirty) s (s.setDirty d) := by
  intro p hp
  cases p with
  | dirty => exact absurd rfl hp
  | _ => rfl

theorem setFb_onlyChanges (s : State) (f : Framebuffer) : OnlyChanges Part.isPixel s (s.setFb f) := by
  intro p hp
  cases p with
  | pixel c r => exact absurd trivial hp
  | _ => rfl

theorem loadRegs_onlyChanges (s : State) (x : Ix) (bs : List Byte) (h : bs.length = x.val + 1) :
    OnlyChanges (fun p => ∃ k : Ix, k ≤ x ∧ p = .reg k) s (s.loadRegs bs) := by
  intro p hp
  cases p with
  | reg r =>
    have hx : x.val < r.val := Fin.not_le.1 fun hr => hp ⟨r, hr, rfl⟩
    have hr : bs.length ≤ r.val := by omega
    simp [Part.Same, List.getD, hr]
  | _ => simp [Part.Same, State.pixel, State.byteAt]

/-- Writing one register and advancing: the frame of a handler with one destination. -/
theorem finish_onlyChanges (s : State) (x : Ix) (v : Byte) :
    OnlyChanges (fun p => p = .reg x ∨ p = .pc) s (s.finish x v) :=
  ((writeV_onlyChanges s x v).mono fun _ => .inl).trans ((setPc_onlyChanges _ _).mono fun _ => .inr)

/-- Writing VF, a register and pc: the frame of a handler with a flag. -/
theorem finishFlag_onlyChanges (s : State) (f : Byte) (x : Ix) (v : Byte) :
    OnlyChanges (fun p => p = .reg x ∨ p = .reg 15 ∨ p = .pc) s (s.finishFlag f x v) :=
  (((writeV_onlyChanges s 15 f).mono fun _ h => .inr (.inl h)).trans
    ((writeV_onlyChanges _ x v).mono fun _ => .inl)).trans
    ((setPc_onlyChanges _ _).mono fun _ h => .inr (.inr h))

/-- What a handler with a flag leaves in Vx, VF and pc (41_alu.md R143). -/
theorem finishFlag_result (s : State) (f : Byte) (x : Ix) (v : Byte) :
    (s.finishFlag f x v).readV x = v ∧ (x ≠ 15 → (s.finishFlag f x v).readV 15 = f) ∧
      (s.finishFlag f x v).pc = s.pc + 2 := by
  refine ⟨by simp, fun h => ?_, by simp⟩
  simp [State.readV_writeV, Ne.symm h]

/-- Everything a transaction can do (00_scope.md R13). -/
theorem transact_cases {α : Type} {r : Except Raise α} {k : α → State} {s t : State}
    (h : transact r k s = .next t) :
    (∃ e, r = .error e ∧ t = s.raise e) ∨ ∃ a, r = .ok a ∧ t = k a := by
  cases r with
  | error e => exact .inl ⟨e, rfl, (Host.Outcome.next.inj h).symm⟩
  | ok a => exact .inr ⟨a, rfl, (Host.Outcome.next.inj h).symm⟩

/-- A transaction that raises (60_exceptions.md R212). -/
theorem transact_error {α : Type} {r : Except Raise α} {e : Raise} {k : α → State} {s : State}
    (h : r = .error e) : transact r k s = .next (s.raise e) := by
  rw [h]
  rfl

/-- A transaction that completes. -/
theorem transact_ok {α : Type} {r : Except Raise α} {a : α} {k : α → State} {s : State} (h : r = .ok a) :
    transact r k s = .next (k a) := by
  rw [h]
  rfl

/-- Everything a push can do (40_control.md R105, R106). -/
theorem pushReturn_cases (s : State) :
    (s.sp = 15 ∧ s.pushReturn = .error (.fatal (.stackOverflow s.pc))) ∨
      (s.sp ≠ 15 ∧ s.pushReturn =
        .ok { s with stack := s.stack.set s.sp (s.pc + 2), sp := s.sp + 1 }) := by
  by_cases h : s.sp = 15 <;> simp [State.pushReturn, h]

/-- Everything a pop can do (40_control.md R107, R108). -/
theorem popReturn_cases (s : State) :
    (s.sp = 0 ∧ s.popReturn = .error (.fatal (.stackUnderflow s.pc))) ∨
      (s.sp ≠ 0 ∧ s.popReturn =
        .ok { s with sp := s.sp - 1, pc := s.stack[s.sp - 1] }) := by
  by_cases h : s.sp = 0 <;> simp [State.popReturn, h]

/-- Everything a key operand can do (44_timers_keypad.md R190). -/
theorem keyIndex_cases (a : Byte) :
    (0xF < a.toNat ∧ keyIndex a = .error (.refuse (.keyIndexOutOfRange a))) ∨
      ∃ k : Ix, a.toNat = k.val ∧ keyIndex a = .ok k := by
  by_cases h : a.toNat < 16
  · exact .inr ⟨⟨a.toNat, h⟩, rfl, by simp [keyIndex, h]⟩
  · exact .inl ⟨by omega, by simp [keyIndex, h]⟩

/-- The key chosen is a pressed one, and there is none exactly when none is pressed (44_timers_keypad.md
R196). -/
theorem chooseKey_cases (keys : Vector Bool 16) (free : Nat) :
    ((∀ k : Ix, keys[k] = false) ∧ chooseKey (pressedKeys keys) free = none) ∨
      ∃ k : Ix, keys[k] = true ∧ chooseKey (pressedKeys keys) free = some k := by
  have mem : ∀ k, k ∈ pressedKeys keys ↔ keys[k] = true := by simp [pressedKeys]
  rcases h : pressedKeys keys with _ | ⟨k, _ | ⟨k', ks⟩⟩
  · refine .inl ⟨fun k => ?_, rfl⟩
    have := mem k
    simpa [h] using this
  · exact .inr ⟨k, (mem k).1 (by simp [h]), rfl⟩
  · have hlt : free % (ks.length + 2) < (k :: k' :: ks).length := Nat.mod_lt _ (by omega)
    refine .inr ⟨(k :: k' :: ks)[free % (ks.length + 2)], (mem _).1 ?_, List.getElem?_eq_getElem hlt⟩
    rw [h]
    exact List.getElem_mem hlt

end Sys2Proof.Machine
end

