-- ==== Sys2Proof/Laws/Display.lean ====
section
/-! SUPPORT. Drawing: what one pixel, one column, one row and a whole sprite do to the framebuffer and to the
collision, and that no pixel is toggled twice (43_display.md R181 to R184). -/

namespace Sys2Proof.Machine

theorem pixelAt_togglePixel (fb : Framebuffer) (c c' : Fin 64) (r r' : Fin 32) :
    pixelAt (togglePixel fb c r) c' r' =
      if c' = c ∧ r' = r then !pixelAt fb c' r' else pixelAt fb c' r' := by
  unfold pixelAt togglePixel
  by_cases hr : r' = r
  · subst hr
    by_cases hc : c' = c
    · subst hc
      simp
    · have : ¬ (c' : Nat) = c := fun e => hc (Fin.ext e)
      simp [hc, this]
  · have : (r : Nat) ≠ r' := fun e => hr (Fin.ext e.symm)
    simp [hr, Vector.getElem_set_ne, this]

theorem pixelAt_clearedScreen (c : Fin 64) (r : Fin 32) : pixelAt clearedScreen c r = false := by
  simp [pixelAt, clearedScreen]

/-- From `d` to `d'` exactly the pixels of `cov` are toggled, and the collision records whether one of them was
lit. -/
structure Draws (cov : Fin 64 → Fin 32 → Prop) (d d' : Drawing) : Prop where
  toggled : ∀ c r, cov c r → pixelAt d'.fb c r = !pixelAt d.fb c r
  kept : ∀ c r, ¬ cov c r → pixelAt d'.fb c r = pixelAt d.fb c r
  hit : d'.collision = true ↔ d.collision = true ∨ ∃ c r, cov c r ∧ pixelAt d.fb c r = true

theorem Draws.congr {cov cov' : Fin 64 → Fin 32 → Prop} {d d' : Drawing} (h : Draws cov d d')
    (he : ∀ c r, cov' c r ↔ cov c r) : Draws cov' d d' := by
  have : cov' = cov := funext fun c => funext fun r => propext (he c r)
  exact this ▸ h

theorem Draws.none (d : Drawing) : Draws (fun _ _ => False) d d :=
  ⟨fun _ _ h => h.elim, fun _ _ _ => rfl, by simp⟩

/-- Draws on disjoint pixels compose, so that their order cannot be observed (R184). -/
theorem Draws.trans {cov₁ cov₂ : Fin 64 → Fin 32 → Prop} {d d' d'' : Drawing} (h₁ : Draws cov₁ d d')
    (h₂ : Draws cov₂ d' d'') (disjoint : ∀ c r, cov₁ c r → ¬ cov₂ c r) :
    Draws (fun c r => cov₁ c r ∨ cov₂ c r) d d'' := by
  refine ⟨fun c r h => ?_, fun c r h => ?_, ?_⟩
  · rcases h with h | h
    · rw [h₂.kept c r (disjoint c r h), h₁.toggled c r h]
    · rw [h₂.toggled c r h, h₁.kept c r fun h' => disjoint c r h' h]
  · rw [h₂.kept c r fun h' => h (.inr h'), h₁.kept c r fun h' => h (.inl h')]
  · rw [h₂.hit, h₁.hit]
    constructor
    · rintro ((h | ⟨c, r, h, hl⟩) | ⟨c, r, h, hl⟩)
      · exact .inl h
      · exact .inr ⟨c, r, .inl h, hl⟩
      · rw [h₁.kept c r fun h' => disjoint c r h' h] at hl
        exact .inr ⟨c, r, .inr h, hl⟩
    · rintro (h | ⟨c, r, h | h, hl⟩)
      · exact .inl (.inl h)
      · exact .inl (.inr ⟨c, r, h, hl⟩)
      · refine .inr ⟨c, r, h, ?_⟩
        rw [h₁.kept c r fun h' => disjoint c r h' h]
        exact hl

theorem drawPixel_draws (c : Fin 64) (r : Fin 32) (d : Drawing) :
    Draws (fun c' r' => c' = c ∧ r' = r) d (drawPixel c r d) := by
  refine ⟨fun c' r' h => ?_, fun c' r' h => ?_, ?_⟩
  · simp [drawPixel, pixelAt_togglePixel, h]
  · simp [drawPixel, pixelAt_togglePixel, h]
  · simp [drawPixel]

theorem screenCol_val (a : Byte) (col : Nat) : (screenCol a col).val = (a.toNat + col) % 64 := rfl

theorem screenRow_val (b : Byte) (row : Nat) : (screenRow b row).val = (b.toNat + row) % 32 := rfl

theorem drawCol_draws (a : Byte) (r : Fin 32) (bits : Byte) (d : Drawing) (col : Nat) :
    Draws (fun c' r' => bits.getLsbD (7 - col) = true ∧ c' = screenCol a col ∧ r' = r) d
      (drawCol a r bits d col) := by
  unfold drawCol
  split
  · next h => exact (drawPixel_draws _ _ d).congr fun c' r' => by simp [h]
  · next h => exact (Draws.none d).congr fun c' r' => by simp [h]

/-- Columns below 8 fall on different screen columns (R184). -/
theorem screenCol_inj {a : Byte} {i j : Nat} (hi : i < 8) (hj : j < 8) (h : screenCol a i = screenCol a j) :
    i = j := by
  have := congrArg Fin.val h
  simp only [screenCol_val] at this
  omega

/-- Rows below 16 fall on different screen rows (R184). -/
theorem screenRow_inj {b : Byte} {i j : Nat} (hi : i < 16) (hj : j < 16) (h : screenRow b i = screenRow b j) :
    i = j := by
  have := congrArg Fin.val h
  simp only [screenRow_val] at this
  omega

theorem foldl_drawCol_draws (a : Byte) (r : Fin 32) (bits : Byte) (cols : List Nat) (hn : cols.Nodup)
    (hc : ∀ i ∈ cols, i < 8) (d : Drawing) :
    Draws (fun c' r' => ∃ col ∈ cols, bits.getLsbD (7 - col) = true ∧ c' = screenCol a col ∧ r' = r) d
      (cols.foldl (drawCol a r bits) d) := by
  induction cols generalizing d with
  | nil => exact (Draws.none d).congr fun c' r' => by simp
  | cons i rest ih =>
    obtain ⟨hi, hn⟩ := List.nodup_cons.1 hn
    have h := (drawCol_draws a r bits d i).trans
      (ih hn (fun j hj => hc j (List.mem_cons_of_mem _ hj)) _) (by
        rintro c' r' ⟨-, rfl, -⟩ ⟨j, hj, -, he, -⟩
        exact hi (screenCol_inj (hc i (by simp)) (hc j (by simp [hj])) he ▸ hj))
    exact h.congr fun c' r' => by simp

/-- One sprite row (R181, R182). -/
theorem drawRow_draws (a : Byte) (r : Fin 32) (bits : Byte) (d : Drawing) :
    Draws (fun c' r' => ∃ col, col < 8 ∧ bits.getLsbD (7 - col) = true ∧ c' = screenCol a col ∧ r' = r) d
      (drawRow a r bits d) :=
  (foldl_drawCol_draws a r bits (List.range 8) List.nodup_range (by simp) d).congr fun c' r' => by simp

theorem drawRows_draws (a b : Byte) (sprite : List Byte) (first : Nat) (hl : first + sprite.length ≤ 16)
    (d : Drawing) :
    Draws (fun c' r' => ∃ row col, row < sprite.length ∧ col < 8 ∧
        (sprite.getD row 0).getLsbD (7 - col) = true ∧ c' = screenCol a col ∧ r' = screenRow b (first + row))
      d (drawRows a b first sprite d) := by
  induction sprite generalizing first d with
  | nil => exact (Draws.none d).congr fun c' r' => by simp
  | cons bits rest ih =>
    simp only [List.length_cons] at hl
    have h := (drawRow_draws a (screenRow b first) bits d).trans (ih (first + 1) (by omega) _) (by
      rintro c' r' ⟨-, -, -, -, rfl⟩ ⟨row, -, hr, -, -, -, he⟩
      have := screenRow_inj (by omega) (by omega) he
      omega)
    refine h.congr fun c' r' => ⟨?_, ?_⟩
    · rintro ⟨row, col, hr, hc, hb, hx, hy⟩
      cases row with
      | zero => exact .inl ⟨col, hc, by simpa using hb, hx, hy⟩
      | succ row =>
        refine .inr ⟨row, col, by simpa using hr, hc, by simpa using hb, hx, ?_⟩
        rw [hy, Nat.add_assoc, Nat.add_comm 1]
    · rintro (⟨col, hc, hb, hx, hy⟩ | ⟨row, col, hr, hc, hb, hx, hy⟩)
      · exact ⟨0, col, by simp, hc, by simpa using hb, hx, hy⟩
      · refine ⟨row + 1, col, by simpa using hr, hc, by simpa using hb, hx, ?_⟩
        rw [hy, Nat.add_assoc, Nat.add_comm 1]

/-- A whole sprite of at most 15 rows: each set bit toggles its pixel once, and the collision says whether one of
them was lit (R181, R184). -/
theorem drawSprite_draws (a b : Byte) (sprite : List Byte) (hl : sprite.length ≤ 15) (fb : Framebuffer) :
    Draws (fun c' r' => ∃ row col, row < sprite.length ∧ col < 8 ∧
        (sprite.getD row 0).getLsbD (7 - col) = true ∧ c' = screenCol a col ∧ r' = screenRow b row)
      { fb := fb, collision := false } (drawSprite a b sprite fb) :=
  (drawRows_draws a b sprite 0 (by omega) _).congr fun c' r' => by simp

end Sys2Proof.Machine
end

