-- ==== Sys2Proof/Laws/Memory.lean ====
section
/-! SUPPORT. Memory: read after write, the canonical form is kept, and everything the block accesses can do. -/

namespace Sys2Proof.Machine

variable (font : Vector Byte 80)

/-! ### Reads after writes -/

theorem peek_cons (b d : Nat) (w : Byte) (rest : Memory) :
    peek font b ((d, w) :: rest) = if d = b then w else peek font b rest := rfl

theorem peek_listByte (a b : Nat) (v : Byte) (m : Memory) :
    peek font b (listByte a v m) = if b = a then v else peek font b m := by
  induction m with
  | nil => simp [listByte, peek, eq_comm]
  | cons c rest ih =>
    obtain ⟨d, w⟩ := c
    rw [listByte]
    split
    · rw [peek_cons]
      simp [eq_comm]
    · split
      · next h =>
        subst h
        rw [peek_cons, peek_cons]
        by_cases hb : a = b <;> simp [hb, eq_comm]
      · next h =>
        rw [peek_cons, peek_cons, ih]
        by_cases hd : d = b
        · simp [hd, show b ≠ a by omega]
        · simp [hd]

theorem peek_filter (a b : Nat) (m : Memory) :
    peek font b (m.filter fun c => c.1 ≠ a) = if b = a then unlisted font a else peek font b m := by
  induction m with
  | nil =>
    by_cases h : b = a
    · simp [peek, h]
    · simp [peek, h]
  | cons c rest ih =>
    obtain ⟨d, w⟩ := c
    rw [peek_cons]
    by_cases hd : d = a
    · rw [List.filter_cons_of_neg (by simp [hd]), ih]
      by_cases hb : b = a
      · simp [hb]
      · simp [hb, show d ≠ b by omega]
    · rw [List.filter_cons_of_pos (by simp [hd]), peek_cons, ih]
      by_cases hb : d = b
      · simp [hb, show b ≠ a by omega]
      · simp [hb]

/-- Everything a write does to a read (20_memory.md R52, R53). -/
theorem peek_poke (a b : Nat) (v : Byte) (m : Memory) :
    peek font b (poke font a v m) = if b = a then v else peek font b m := by
  unfold poke
  split
  · next h => rw [peek_filter, h]
  · exact peek_listByte font a b v m

theorem peek_pokeAll (a b : Nat) (vs : List Byte) (m : Memory) :
    peek font b (pokeAll font a vs m) =
      if a ≤ b ∧ b < a + vs.length then vs.getD (b - a) 0 else peek font b m := by
  induction vs generalizing a m with
  | nil =>
    have h : ¬ (a ≤ b ∧ b < a + ([] : List Byte).length) := by simp only [List.length_nil]; omega
    rw [if_neg h, pokeAll]
  | cons v rest ih =>
    simp only [pokeAll, ih, peek_poke, List.length_cons]
    by_cases hb : b = a
    · subst hb
      simp
    · by_cases h : a + 1 ≤ b ∧ b < a + 1 + rest.length
      · have hs : b - a = (b - (a + 1)) + 1 := by omega
        have hr : a ≤ b ∧ b < a + (rest.length + 1) := by omega
        simp [h, hr, hs]
      · have hr : ¬ (a ≤ b ∧ b < a + (rest.length + 1)) := by omega
        rw [if_neg h, if_neg hr, if_neg hb]

/-! ### The canonical form -/

theorem memoryWf_iff (m : Memory) : memoryWf font m = true ↔
    m.Pairwise (fun c d => c.1 < d.1) ∧ ∀ c ∈ m, c.1 < 4096 ∧ c.2 ≠ unlisted font c.1 := by
  simp only [memoryWf, Bool.and_eq_true, decide_eq_true_eq, List.all_eq_true]
  rfl

theorem memoryWf_nil : memoryWf font [] = true := by
  simp [memoryWf]

theorem mem_listByte {a : Nat} {v : Byte} {c : Host.Cell} {m : Memory} (h : c ∈ listByte a v m) :
    c = (a, v) ∨ c ∈ m := by
  induction m with
  | nil => simpa [listByte] using h
  | cons d rest ih =>
    obtain ⟨e, w⟩ := d
    simp only [listByte] at h
    split at h
    · simpa using h
    · split at h
      · rcases List.mem_cons.1 h with h | h
        · exact .inl h
        · exact .inr (List.mem_cons_of_mem _ h)
      · rcases List.mem_cons.1 h with h | h
        · exact .inr (by simp [h])
        · exact (ih h).imp_right (List.mem_cons_of_mem _)

theorem pairwise_listByte {a : Nat} {v : Byte} {m : Memory}
    (h : m.Pairwise fun c d => c.1 < d.1) : (listByte a v m).Pairwise fun c d => c.1 < d.1 := by
  induction m with
  | nil => simp [listByte]
  | cons d rest ih =>
    obtain ⟨e, w⟩ := d
    obtain ⟨h₁, h₂⟩ := List.pairwise_cons.1 h
    simp only [listByte]
    split
    · next hlt =>
      refine List.pairwise_cons.2 ⟨fun c hc => ?_, h⟩
      rcases List.mem_cons.1 hc with rfl | hc
      · exact hlt
      · exact hlt.trans (h₁ c hc)
    · split
      · next he => exact List.pairwise_cons.2 ⟨fun c hc => he ▸ h₁ c hc, h₂⟩
      · refine List.pairwise_cons.2 ⟨fun c hc => ?_, ih h₂⟩
        rcases mem_listByte hc with rfl | hc
        · show e < a
          omega
        · exact h₁ c hc

/-- A write inside the address space keeps the canonical form. -/
theorem poke_wf {font : Vector Byte 80} {a : Nat} {v : Byte} {m : Memory} (ha : a < 4096)
    (h : memoryWf font m = true) : memoryWf font (poke font a v m) = true := by
  rw [memoryWf_iff] at h ⊢
  unfold poke
  split
  · exact ⟨h.1.filter _, fun c hc => h.2 c (List.mem_of_mem_filter hc)⟩
  · next hv =>
    refine ⟨pairwise_listByte h.1, fun c hc => ?_⟩
    rcases mem_listByte hc with rfl | hc
    · exact ⟨ha, hv⟩
    · exact h.2 c hc

theorem pokeAll_wf {font : Vector Byte 80} {a : Nat} {vs : List Byte} {m : Memory}
    (ha : a + vs.length ≤ 4096) (h : memoryWf font m = true) :
    memoryWf font (pokeAll font a vs m) = true := by
  induction vs generalizing a m with
  | nil => exact h
  | cons v rest ih =>
    simp only [List.length_cons] at ha
    exact ih (by omega) (poke_wf (by omega) h)

/-! ### Block accesses -/

/-- Everything a block read can do: the bytes, or the lowest address outside memory (20_memory.md R52, R61). -/
theorem loadBytes_cases (m : Memory) (a n : Nat) :
    ((n = 0 ∨ a + n ≤ 4096) ∧
      loadBytes font m a n = .ok ((List.range n).map fun k => peek font (a + k) m)) ∨
    (n ≠ 0 ∧ 4096 < a + n ∧
      loadBytes font m a n = .error (.fatal (.outOfBoundsAddress (firstOutside a)))) := by
  induction n generalizing a with
  | zero => exact .inl ⟨.inl rfl, rfl⟩
  | succ n ih =>
    by_cases ha : a > 0xFFF
    · refine .inr ⟨by omega, by omega, ?_⟩
      have : firstOutside a = a := by unfold firstOutside; omega
      simp [loadBytes, memRead, Config.lastAddr, ha, this]
    · rcases ih (a + 1) with ⟨h, he⟩ | ⟨h, h', he⟩
      · refine .inl ⟨by omega, ?_⟩
        simp [loadBytes, memRead, Config.lastAddr, ha, he, List.range_succ_eq_map,
          Function.comp_def, Nat.add_assoc, Nat.add_comm 1]
      · refine .inr ⟨by omega, by omega, ?_⟩
        have : firstOutside (a + 1) = firstOutside a := by unfold firstOutside; omega
        simp [loadBytes, memRead, Config.lastAddr, ha, he, this]

/-- Everything a write can do (20_memory.md R53). -/
theorem memWrite_cases (p : Params) (a : Nat) (v : Byte) (m : Memory) :
    (0xFFF < a ∧ memWrite p a v m = .error (.fatal (.outOfBoundsAddress a))) ∨
    (a ≤ 0xFFF ∧ (0x4F < a ∨ p.fontWrite = .store) ∧ memWrite p a v m = .ok (poke p.font a v m)) ∨
    (a ≤ 0x4F ∧ p.fontWrite = .discard ∧ memWrite p a v m = .ok m) ∨
    (a ≤ 0x4F ∧ p.fontWrite = .refuse ∧ memWrite p a v m = .error (.refuse (.fontRegionWrite a))) := by
  by_cases h : a > 0xFFF
  · exact .inl ⟨h, by simp [memWrite, Config.lastAddr, h]⟩
  · by_cases h' : a ≤ 0x4F
    · cases hf : p.fontWrite <;>
        simp [memWrite, Config.lastAddr, Config.fontLast, h, h', hf]
      omega
    · refine .inr (.inl ⟨by omega, .inl (by omega), ?_⟩)
      simp [memWrite, Config.lastAddr, Config.fontLast, h, h']

/-- What a completed block store leaves: the bytes stored, less those the font region discards, every other
byte as before, and the canonical form kept. -/
structure StoredBytes (p : Params) (a : Nat) (vs : List Byte) (m m' : Memory) : Prop where
  stored : ∀ b, a ≤ b → b < a + vs.length → (b ≤ 0x4F → p.fontWrite = .store) →
    peek p.font b m' = vs.getD (b - a) 0
  discarded : ∀ b, b ≤ 0x4F → p.fontWrite = .discard → peek p.font b m' = peek p.font b m
  outside : ∀ b, b < a ∨ a + vs.length ≤ b → peek p.font b m' = peek p.font b m
  wf : memoryWf p.font m = true → memoryWf p.font m' = true

/-- Everything a block store can do (20_memory.md R53, R59, R61, R62): complete, meet the end of memory, or be
refused in the font region at its first byte there. -/
theorem storeBytes_cases (p : Params) (a : Nat) (vs : List Byte) (m : Memory) :
    (∃ m', storeBytes p a vs m = .ok m' ∧ StoredBytes p a vs m m' ∧
      (vs = [] ∨ (a + vs.length ≤ 4096 ∧ (0x4F < a ∨ p.fontWrite ≠ .refuse)))) ∨
    (vs ≠ [] ∧ 4096 < a + vs.length ∧ (0x4F < a ∨ p.fontWrite ≠ .refuse) ∧
      storeBytes p a vs m = .error (.fatal (.outOfBoundsAddress (firstOutside a)))) ∨
    (vs ≠ [] ∧ a ≤ 0x4F ∧ p.fontWrite = .refuse ∧
      storeBytes p a vs m = .error (.refuse (.fontRegionWrite a))) := by
  induction vs generalizing a m with
  | nil => exact .inl ⟨m, rfl, ⟨fun b h h' => by simp at h'; omega, fun _ _ _ => rfl, fun _ _ => rfl, id⟩, .inl rfl⟩
  | cons v rest ih =>
    simp only [storeBytes, List.length_cons]
    rcases memWrite_cases p a v m with ⟨h, he⟩ | ⟨h, hs, he⟩ | ⟨h, hd, he⟩ | ⟨h, hr, he⟩
    · refine .inr (.inl ⟨by simp, by omega, .inl (by omega), ?_⟩)
      have : firstOutside a = a := by unfold firstOutside; omega
      simp [he, this]
    · have hf : 0x4F < a ∨ p.fontWrite ≠ .refuse := hs.imp_right fun h => by simp [h]
      simp only [he]
      rcases ih (a + 1) (poke p.font a v m) with ⟨m', hm, hst, hc⟩ | ⟨h1, h2, h3, hm⟩ | ⟨h1, h2, h3, hm⟩
      · refine .inl ⟨m', hm, ⟨fun b h₁ h₂ h₃ => ?_, fun b h₁ h₂ => ?_, fun b h₁ => ?_, fun hw => ?_⟩, .inr ⟨?_, hf⟩⟩
        · by_cases hb : b = a
          · subst hb
            rw [hst.outside b (by omega), peek_poke]
            simp
          · rw [hst.stored b (by omega) (by simp at h₂; omega) h₃]
            have : b - a = (b - (a + 1)) + 1 := by omega
            simp [this]
        · rw [hst.discarded b h₁ h₂, peek_poke]
          have : b ≠ a := by
            rintro rfl
            rcases hs with hs | hs
            · omega
            · simp [hs] at h₂
          simp [this]
        · simp only [List.length_cons] at h₁
          rw [hst.outside b (by omega), peek_poke]
          simp [show b ≠ a by omega]
        · exact hst.wf (poke_wf (by omega) hw)
        · rcases hc with rfl | hc
          · simp; omega
          · omega
      · refine .inr (.inl ⟨by simp, by omega, hf, ?_⟩)
        have : firstOutside (a + 1) = firstOutside a := by unfold firstOutside; omega
        rw [hm, this]
      · rcases hf with hf | hf
        · omega
        · exact absurd h3 hf
    · have hf : 0x4F < a ∨ p.fontWrite ≠ .refuse := .inr (by simp [hd])
      simp only [he]
      rcases ih (a + 1) m with ⟨m', hm, hst, hc⟩ | ⟨h1, h2, h3, hm⟩ | ⟨h1, h2, h3, hm⟩
      · refine .inl ⟨m', hm, ⟨fun b h₁ h₂ h₃ => ?_, hst.discarded, fun b h₁ => ?_, hst.wf⟩, .inr ⟨?_, hf⟩⟩
        · have hb : ¬ b ≤ 0x4F := fun hb => by simp [hd] at h₃; omega
          rw [hst.stored b (by omega) (by simp at h₂; omega) h₃]
          have : b - a = (b - (a + 1)) + 1 := by omega
          simp [this]
        · simp only [List.length_cons] at h₁
          exact hst.outside b (by omega)
        · rcases hc with rfl | hc
          · simp; omega
          · omega
      · refine .inr (.inl ⟨by simp, by omega, hf, ?_⟩)
        have : firstOutside (a + 1) = firstOutside a := by unfold firstOutside; omega
        rw [hm, this]
      · simp [hd] at h3
    · exact .inr (.inr ⟨by simp, h, hr, by simp [he]⟩)

end Sys2Proof.Machine
end

