-- ==== Sys2Proof/Laws/Engine.lean ====
section
/-! SUPPORT. The engine: what a fetch, a dispatch and a step can do, said once (40_control.md R100). -/

namespace Sys2Proof.Machine

/-- Everything a fetch can do (20_memory.md R54). -/
theorem fetch_cases (s : State) :
    (s.pc.toNat < 0xFFF ∧ fetch s = .ok s.nextWord) ∨
      (0xFFE < s.pc.toNat ∧
        fetch s = .error (.fatal (.outOfBoundsAddress (firstOutside s.pc.toNat)))) := by
  rcases loadBytes_cases s.params.font s.mem s.pc.toNat 2 with ⟨h, he⟩ | ⟨-, h, he⟩
  · refine .inl ⟨by omega, ?_⟩
    simp [fetch, he, State.nextWord, State.byteAt, List.range_succ]
  · exact .inr ⟨by omega, by simp [fetch, he]⟩

theorem step_running {s : State} (h : s.run = .running) : step s = cycle s := by
  simp [step, runCycle, h]

theorem step_stopped {s : State} (h : s.run ≠ .running) : step s = .next s := by
  unfold step runCycle
  split
  · next h' => exact absurd h' h
  · rfl
  · rfl

theorem step_canFetch {s : State} (h : s.canFetch) :
    step s = dispatch (decode s.params.addI s.nextWord) s := by
  rw [step_running h.1]
  rcases fetch_cases s with ⟨-, he⟩ | ⟨h', -⟩
  · simp [cycle, he]
  · exact absurd h.2 (by simp only [Config.lastAddr]; omega)

/-- Everything a step can do (40_control.md R100, 60_exceptions.md R231): nothing when the engine is stopped, a
fetch error, the report of an Unknown word, or the decoded instruction. -/
theorem step_cases {s t : State} (h : step s = .next t) :
    (s.run ≠ .running ∧ t = s) ∨
    (s.run = .running ∧ 0xFFE < s.pc.toNat ∧
      t = s.raise (.fatal (.outOfBoundsAddress (firstOutside s.pc.toNat)))) ∨
    (s.canFetch ∧ ∃ w, decode s.params.addI s.nextWord = .unknown w ∧ t = s.reportUnknown w) ∨
    (s.canFetch ∧ ∃ i, decode s.params.addI s.nextWord = .instr i ∧ exec i s = .next t) := by
  by_cases hr : s.run = .running
  · rcases fetch_cases s with ⟨hp, he⟩ | ⟨hp, he⟩
    · have hc : s.canFetch := ⟨hr, hp⟩
      rw [step_canFetch hc] at h
      cases hd : decode s.params.addI s.nextWord with
      | unknown w =>
        rw [hd] at h
        exact .inr (.inr (.inl ⟨hc, w, rfl, (Host.Outcome.next.inj h).symm⟩))
      | instr i =>
        rw [hd] at h
        exact .inr (.inr (.inr ⟨hc, i, rfl, h⟩))
    · rw [step_running hr, cycle, he] at h
      exact .inr (.inl ⟨hr, hp, (Host.Outcome.next.inj h).symm⟩)
  · rw [step_stopped hr] at h
    exact .inl ⟨hr, (Host.Outcome.next.inj h).symm⟩

/-- Everything a block store through I can do (42_index_memory.md R162, R163). -/
theorem storeAtI_cases {s t : State} {bytes : List Byte} (h : s.storeAtI bytes = .next t) :
    (∃ e, t = s.raise e) ∨
      ∃ m, storeBytes s.params s.dataAddr bytes s.mem = .ok m ∧
        StoredBytes s.params s.dataAddr bytes s.mem m ∧ t = (s.setMem m).advance := by
  rcases transact_cases h with ⟨e, -, ht⟩ | ⟨m, hm, ht⟩
  · exact .inl ⟨e, ht⟩
  · rcases storeBytes_cases s.params s.dataAddr bytes s.mem with ⟨m', hm', hs, -⟩ | ⟨-, -, -, he⟩ | ⟨-, -, -, he⟩
    · rw [hm] at hm'
      cases hm'
      exact .inr ⟨m, hm, hs, ht⟩
    · rw [hm] at he
      cases he
    · rw [hm] at he
      cases he

/-- A block store through I completes inside memory when no font-region write is refused. -/
theorem storeAtI_completes {s : State} {bytes : List Byte}
    (hin : s.dataAddr + bytes.length ≤ 4096) (hf : 0x4F < s.dataAddr ∨ s.params.fontWrite ≠ .refuse) :
    ∃ m, StoredBytes s.params s.dataAddr bytes s.mem m ∧
      s.storeAtI bytes = .next ((s.setMem m).advance) := by
  rcases storeBytes_cases s.params s.dataAddr bytes s.mem with ⟨m, hm, hs, -⟩ | ⟨-, h, -, -⟩ | ⟨-, h, hr, -⟩
  · exact ⟨m, hs, by simp [State.storeAtI, transact, hm]⟩
  · omega
  · rcases hf with hf | hf
    · omega
    · exact absurd hr hf

/-- The frame of a completed block store: the stored bytes and pc. -/
theorem stored_onlyChanges {s : State} {bytes : List Byte} {m : Memory}
    (h : StoredBytes s.params s.dataAddr bytes s.mem m) :
    OnlyChanges (fun p => p.isByteOf s.dataAddr bytes.length ∨ p = .pc) s ((s.setMem m).advance) := by
  intro p hp
  cases p with
  | byte b =>
    refine h.outside b ?_
    simp only [Part.isByteOf, not_or] at hp
    omega
  | pc => exact absurd (.inr rfl) hp
  | _ => rfl

theorem regsUpTo_length (s : State) (x : Ix) : (s.regsUpTo x).length = x.val + 1 := by
  simp [State.regsUpTo]

theorem regsUpTo_getD (s : State) (x k : Ix) (h : k ≤ x) : (s.regsUpTo x).getD k.val 0 = s.readV k := by
  have hk : k.val < x.val + 1 := Nat.lt_succ_of_le h
  simp [State.regsUpTo, State.readV, List.getD, hk]

/-- An instruction either raises, and then it changes run alone, or it leaves run as it was (00_scope.md R13). -/
theorem exec_raises_or_keeps_run {i : Instr} {s t : State} (h : exec i s = .next t) :
    (∃ e, t = s.raise e) ∨ t.run = s.run := by
  have next {u : State} (h : (Host.Outcome.next u : Outcome) = .next t) : t = u :=
    (Host.Outcome.next.inj h).symm
  cases i
  case ret =>
    rcases transact_cases h with ⟨e, -, rfl⟩ | ⟨u, hu, rfl⟩
    · exact .inl ⟨e, rfl⟩
    · rcases popReturn_cases s with ⟨-, h'⟩ | ⟨-, h'⟩ <;> rw [hu] at h' <;> cases h'
      exact .inr rfl
  case call =>
    rcases transact_cases h with ⟨e, -, rfl⟩ | ⟨u, hu, rfl⟩
    · exact .inl ⟨e, rfl⟩
    · rcases pushReturn_cases s with ⟨-, h'⟩ | ⟨-, h'⟩ <;> rw [hu] at h' <;> cases h'
      exact .inr rfl
  case ldBVx | ldMemVx =>
    rcases storeAtI_cases h with h | ⟨m, -, -, rfl⟩
    · exact .inl h
    · exact .inr rfl
  case ldVxK =>
    simp only [exec, execLdVxK] at h
    split at h <;> cases next h <;> exact .inr rfl
  case ldVxMem | drw | skp | sknp =>
    rcases transact_cases h with ⟨e, -, rfl⟩ | ⟨u, -, rfl⟩
    · exact .inl ⟨e, rfl⟩
    · exact .inr rfl
  all_goals
    cases next h
    exact .inr rfl

end Sys2Proof.Machine
end

