-- ==== Sys2Proof/Laws/Invariant.lean ====
section
/-! SUPPORT. The invariant looks at memory, the parameters, pc, the stack and I alone, and the numbers an
instruction puts into pc and I are bounded. -/

namespace Sys2Proof.Machine

/-- A state that keeps memory, parameters, stack and I, with pc in range, keeps the invariant. -/
theorem MachineInv.congr {s t : State} (h : MachineInv s) (hm : t.mem = s.mem) (hp : t.params = s.params)
    (hk : t.stack = s.stack) (hi : t.I = s.I) (hpc : t.pc.toNat ≤ 0x10FE) : MachineInv t where
  memory := by rw [hm, hp]; exact h.memory
  pcRange := hpc
  slotRange := by rw [hk]; exact h.slotRange
  topSlot := by rw [hk]; exact h.topSlot
  fontRegion := by simp only [State.byteAt, hm, hp]; exact h.fontRegion
  indexRange := by rw [hp, hi]; exact h.indexRange

theorem afterReset_inv (p : Params) (rs : List Report) (d : Nat) : MachineInv (State.afterReset p rs d) where
  memory := memoryWf_nil _
  pcRange := by simp [State.afterReset]
  slotRange := by simp [State.afterReset]
  topSlot := by simp [State.afterReset]
  fontRegion := fun _ a h => by simp [State.afterReset, State.byteAt, peek, unlisted, h]
  indexRange := by simp [State.afterReset]

theorem addrOf_toNat (nnn : Addr12) : (addrOf nnn).toNat = nnn.toNat := by
  have := nnn.isLt
  simp only [addrOf, BitVec.toNat_setWidth]
  omega

/-- nnn + V0 does not wrap (40_control.md R110). -/
theorem jumpOffset_toNat (nnn : Addr12) (v : Byte) : (jumpOffset nnn v).toNat = nnn.toNat + v.toNat := by
  have := nnn.isLt
  have := v.isLt
  simp only [jumpOffset, BitVec.toNat_add, addrOf_toNat, BitVec.toNat_setWidth]
  omega

/-- Vx * 5 fits 16 bits (42_index_memory.md R161). -/
theorem glyphAddr_toNat (a : Byte) : (glyphAddr a).toNat = a.toNat * 5 := by
  have := a.isLt
  have five : (5 : Word).toNat = 5 := rfl
  simp only [glyphAddr, BitVec.toNat_mul, BitVec.toNat_setWidth, five]
  omega

theorem indexPlus_toNat (i : Word) (a : Byte) : (indexPlus i a).toNat = (i.toNat + a.toNat) % 65536 := by
  have := a.isLt
  simp only [indexPlus, BitVec.toNat_add, BitVec.toNat_setWidth]
  omega

/-- A block store keeps the invariant, FONT included unless P_FONT_WRITE is Store (20_memory.md R59). -/
theorem stored_inv {s : State} {bytes : List Byte} {m : Memory} (h : MachineInv s)
    (hm : storeBytes s.params s.dataAddr bytes s.mem = .ok m)
    (hs : StoredBytes s.params s.dataAddr bytes s.mem m) : MachineInv (s.setMem m) where
  memory := hs.wf h.memory
  pcRange := h.pcRange
  slotRange := h.slotRange
  topSlot := h.topSlot
  indexRange := h.indexRange
  fontRegion := by
    intro hf a ha
    have keep : peek s.params.font a m = s.byteAt a := by
      cases hp : s.params.fontWrite with
      | store => exact absurd hp hf
      | discard => exact hs.discarded a (by omega) hp
      | refuse =>
        rcases storeBytes_cases s.params s.dataAddr bytes s.mem with
          ⟨m', hm', -, rfl | ⟨-, ho⟩⟩ | ⟨-, -, -, he⟩ | ⟨-, -, -, he⟩
        · cases hm
          rfl
        · refine hs.outside a (.inl ?_)
          rcases ho with ho | ho
          · omega
          · exact absurd hp ho
        · rw [hm] at he
          cases he
        · rw [hm] at he
          cases he
    exact keep.trans (h.fontRegion hf a ha)

end Sys2Proof.Machine
end

