-- ==== Sys2Proof/Laws/PerInstr.lean ====
section
/-! SUPPORT. The family RoundTrip: for each constructor of Instr, its encoding decodes to it on a machine that
has it. -/

namespace Sys2Proof

/-- The encoding of an instruction decodes to it when the machine has it (30_encoding.md R86, R88). -/
def Laws.RoundTrip.Statement (i : Instr) : Prop :=
  ∀ addI : Bool, i.wellFormed addI = true → decode addI (encode i) = .instr i

theorem Laws.RoundTrip.cls : Statement .cls := by
  intro addI _
  rfl

theorem Laws.RoundTrip.ret : Statement .ret := by
  intro addI _
  rfl

theorem Laws.RoundTrip.jp (nnn : Addr12) : Statement (.jp nnn) := by
  intro addI _
  simp [encode, decode, opField_encNnn, nnnField_encNnn]

theorem Laws.RoundTrip.call (nnn : Addr12) : Statement (.call nnn) := by
  intro addI _
  simp [encode, decode, opField_encNnn, nnnField_encNnn]

theorem Laws.RoundTrip.seImm (x : Ix) (kk : Byte) : Statement (.seImm x kk) := by
  intro addI _
  simp [encode, decode, opField_encXkk, xField_encXkk, kkField_encXkk]

theorem Laws.RoundTrip.sneImm (x : Ix) (kk : Byte) : Statement (.sneImm x kk) := by
  intro addI _
  simp [encode, decode, opField_encXkk, xField_encXkk, kkField_encXkk]

theorem Laws.RoundTrip.seReg (x y : Ix) : Statement (.seReg x y) := by
  intro addI _
  simp [encode, decode, opField_encXyn, xField_encXyn, yField_encXyn, nField_encXyn]

theorem Laws.RoundTrip.sneReg (x y : Ix) : Statement (.sneReg x y) := by
  intro addI _
  simp [encode, decode, opField_encXyn, xField_encXyn, yField_encXyn, nField_encXyn]

theorem Laws.RoundTrip.ldImm (x : Ix) (kk : Byte) : Statement (.ldImm x kk) := by
  intro addI _
  simp [encode, decode, opField_encXkk, xField_encXkk, kkField_encXkk]

theorem Laws.RoundTrip.addImm (x : Ix) (kk : Byte) : Statement (.addImm x kk) := by
  intro addI _
  simp [encode, decode, opField_encXkk, xField_encXkk, kkField_encXkk]

theorem Laws.RoundTrip.ldReg (x y : Ix) : Statement (.ldReg x y) := by
  intro addI _
  simp [encode, decode, decodeClass8, opField_encXyn, xField_encXyn, yField_encXyn, nField_encXyn]

theorem Laws.RoundTrip.or (x y : Ix) : Statement (.or x y) := by
  intro addI _
  simp [encode, decode, decodeClass8, opField_encXyn, xField_encXyn, yField_encXyn, nField_encXyn]

theorem Laws.RoundTrip.and (x y : Ix) : Statement (.and x y) := by
  intro addI _
  simp [encode, decode, decodeClass8, opField_encXyn, xField_encXyn, yField_encXyn, nField_encXyn]

theorem Laws.RoundTrip.xor (x y : Ix) : Statement (.xor x y) := by
  intro addI _
  simp [encode, decode, decodeClass8, opField_encXyn, xField_encXyn, yField_encXyn, nField_encXyn]

theorem Laws.RoundTrip.addReg (x y : Ix) : Statement (.addReg x y) := by
  intro addI _
  simp [encode, decode, decodeClass8, opField_encXyn, xField_encXyn, yField_encXyn, nField_encXyn]

theorem Laws.RoundTrip.sub (x y : Ix) : Statement (.sub x y) := by
  intro addI _
  simp [encode, decode, decodeClass8, opField_encXyn, xField_encXyn, yField_encXyn, nField_encXyn]

theorem Laws.RoundTrip.shr (x : Ix) : Statement (.shr x) := by
  intro addI _
  simp [encode, decode, decodeClass8, opField_encXyn, xField_encXyn, nField_encXyn]

theorem Laws.RoundTrip.subn (x y : Ix) : Statement (.subn x y) := by
  intro addI _
  simp [encode, decode, decodeClass8, opField_encXyn, xField_encXyn, yField_encXyn, nField_encXyn]

theorem Laws.RoundTrip.shl (x : Ix) : Statement (.shl x) := by
  intro addI _
  simp [encode, decode, decodeClass8, opField_encXyn, xField_encXyn, nField_encXyn]

theorem Laws.RoundTrip.ldI (nnn : Addr12) : Statement (.ldI nnn) := by
  intro addI _
  simp [encode, decode, opField_encNnn, nnnField_encNnn]

theorem Laws.RoundTrip.jpV0 (nnn : Addr12) : Statement (.jpV0 nnn) := by
  intro addI _
  simp [encode, decode, opField_encNnn, nnnField_encNnn]

theorem Laws.RoundTrip.rnd (x : Ix) (kk : Byte) : Statement (.rnd x kk) := by
  intro addI _
  simp [encode, decode, opField_encXkk, xField_encXkk, kkField_encXkk]

theorem Laws.RoundTrip.drw (x y n : Ix) : Statement (.drw x y n) := by
  intro addI _
  simp [encode, decode, opField_encXyn, xField_encXyn, yField_encXyn, nField_encXyn]

theorem Laws.RoundTrip.skp (x : Ix) : Statement (.skp x) := by
  intro addI _
  simp [encode, decode, decodeClassE, opField_encXkk, xField_encXkk, kkField_encXkk]

theorem Laws.RoundTrip.sknp (x : Ix) : Statement (.sknp x) := by
  intro addI _
  simp [encode, decode, decodeClassE, opField_encXkk, xField_encXkk, kkField_encXkk]

theorem Laws.RoundTrip.ldVxDt (x : Ix) : Statement (.ldVxDt x) := by
  intro addI _
  simp [encode, decode, decodeClassF, opField_encXkk, xField_encXkk, kkField_encXkk]

theorem Laws.RoundTrip.ldVxK (x : Ix) : Statement (.ldVxK x) := by
  intro addI _
  simp [encode, decode, decodeClassF, opField_encXkk, xField_encXkk, kkField_encXkk]

theorem Laws.RoundTrip.ldDtVx (x : Ix) : Statement (.ldDtVx x) := by
  intro addI _
  simp [encode, decode, decodeClassF, opField_encXkk, xField_encXkk, kkField_encXkk]

theorem Laws.RoundTrip.ldStVx (x : Ix) : Statement (.ldStVx x) := by
  intro addI _
  simp [encode, decode, decodeClassF, opField_encXkk, xField_encXkk, kkField_encXkk]

theorem Laws.RoundTrip.ldFVx (x : Ix) : Statement (.ldFVx x) := by
  intro addI _
  simp [encode, decode, decodeClassF, opField_encXkk, xField_encXkk, kkField_encXkk]

theorem Laws.RoundTrip.ldBVx (x : Ix) : Statement (.ldBVx x) := by
  intro addI _
  simp [encode, decode, decodeClassF, opField_encXkk, xField_encXkk, kkField_encXkk]

theorem Laws.RoundTrip.ldMemVx (x : Ix) : Statement (.ldMemVx x) := by
  intro addI _
  simp [encode, decode, decodeClassF, opField_encXkk, xField_encXkk, kkField_encXkk]

theorem Laws.RoundTrip.ldVxMem (x : Ix) : Statement (.ldVxMem x) := by
  intro addI _
  simp [encode, decode, decodeClassF, opField_encXkk, xField_encXkk, kkField_encXkk]

theorem Laws.RoundTrip.addIVx (x : Ix) : Statement (.addIVx x) := by
  intro addI h
  simp [encode, decode, decodeClassF, opField_encXkk, xField_encXkk, kkField_encXkk,
    show addI = true from h]

end Sys2Proof
end

