-- ==== Sys2Proof/Tests/Slice0.lean ====
section
/-! SUPPORT. The model's own tests. Expected values come from spec/95_test_vectors.md (the ids W<n> and T<n> in the
comments) and from the encodings of 30_encoding.md R86; after them, for every statement with hypotheses, a state
and operands that meet them all. -/

namespace Sys2Proof.Tests

open Sys2Proof.Machine

/-! ### Well-formedness -/

/-- R95: without P_ADD_I the machine has no ADD I,Vx. -/
theorem test_wellFormed_refuses_addI : (Instr.addIVx 4).wellFormed false = false := by decide

theorem test_wellFormed_accepts_addI : (Instr.addIVx 4).wellFormed true = true := by decide

theorem test_wellFormed_accepts_ldF : (Instr.ldFVx 4).wellFormed false = true := by decide

/-! ### Decoding: a word written out for every constructor (R86) -/

theorem test_decode_control :
    decode false 0b0000_0000_1110_0000 = .instr .cls ∧
    decode false 0b0000_0000_1110_1110 = .instr .ret ∧
    decode false 0b0001_0010_0011_0100 = .instr (.jp 0x234) ∧
    decode false 0b0010_0011_0000_0000 = .instr (.call 0x300) ∧
    decode false 0b0011_0011_0100_0010 = .instr (.seImm 3 0x42) ∧
    decode false 0b0100_0011_0100_0010 = .instr (.sneImm 3 0x42) ∧
    decode false 0b0101_0001_0010_0000 = .instr (.seReg 1 2) ∧
    decode false 0b1001_1010_1011_0000 = .instr (.sneReg 0xA 0xB) ∧
    decode false 0b1011_0101_0000_0000 = .instr (.jpV0 0x500) := by decide

theorem test_decode_loads_and_logic :
    decode false 0b0110_1010_0101_1100 = .instr (.ldImm 0xA 0x5C) ∧
    decode false 0b0111_0111_1111_1111 = .instr (.addImm 7 0xFF) ∧
    decode false 0b1000_0001_0010_0000 = .instr (.ldReg 1 2) ∧
    decode false 0b1000_0001_0010_0001 = .instr (.or 1 2) ∧
    decode false 0b1000_0001_0010_0010 = .instr (.and 1 2) ∧
    decode false 0b1000_0001_0010_0011 = .instr (.xor 1 2) ∧
    decode false 0b1100_0011_1111_0000 = .instr (.rnd 3 0xF0) := by decide

theorem test_decode_arithmetic :
    decode false 0b1000_0001_0010_0100 = .instr (.addReg 1 2) ∧
    decode false 0b1000_0001_0010_0101 = .instr (.sub 1 2) ∧
    decode false 0b1000_0001_0010_0110 = .instr (.shr 1) ∧
    decode false 0b1000_0001_0010_0111 = .instr (.subn 1 2) ∧
    decode false 0b1000_0001_1111_1110 = .instr (.shl 1) := by decide

theorem test_decode_memory :
    decode false 0b1010_0001_0010_0011 = .instr (.ldI 0x123) ∧
    decode false 0b1111_1010_0010_1001 = .instr (.ldFVx 0xA) ∧
    decode false 0b1111_0101_0011_0011 = .instr (.ldBVx 5) ∧
    decode false 0b1111_0010_0101_0101 = .instr (.ldMemVx 2) ∧
    decode false 0b1111_0010_0110_0101 = .instr (.ldVxMem 2) ∧
    decode true 0b1111_0100_0001_1110 = .instr (.addIVx 4) := by decide

theorem test_decode_display_keys_timers :
    decode false 0b1101_0001_0010_0101 = .instr (.drw 1 2 5) ∧
    decode false 0b1110_0001_1001_1110 = .instr (.skp 1) ∧
    decode false 0b1110_0001_1010_0001 = .instr (.sknp 1) ∧
    decode false 0b1111_0101_0000_0111 = .instr (.ldVxDt 5) ∧
    decode false 0b1111_0011_0000_1010 = .instr (.ldVxK 3) ∧
    decode false 0b1111_0010_0001_0101 = .instr (.ldDtVx 2) ∧
    decode false 0b1111_0010_0001_1000 = .instr (.ldStVx 2) := by decide

/-- T3, T4, T5, T7, T9, T14, T15, T16 and one word of T10. -/
theorem test_decode_unknown :
    decode false 0x0000 = .unknown 0x0000 ∧ decode false 0x0123 = .unknown 0x0123 ∧
    decode false 0x00E1 = .unknown 0x00E1 ∧ decode false 0x5121 = .unknown 0x5121 ∧
    decode false 0x9AB7 = .unknown 0x9AB7 ∧ decode false 0x800F = .unknown 0x800F ∧
    decode false 0xE100 = .unknown 0xE100 ∧ decode false 0xF01E = .unknown 0xF01E ∧
    decode false 0xF0FF = .unknown 0xF0FF := by decide

theorem test_decodeTableWord :
    decodeTableWord 16 0x00E0 = some .cls ∧ decodeTableWord 16 0xF41E = some (.addIVx 4) ∧
    decodeTableWord 16 0x0000 = none := by decide

/-! ### One step on a small state -/

/-- The reset state with two registers set. -/
def regs (x : Ix) (a : Byte) (y : Ix) (b : Byte) : State := (State.reset.writeV x a).writeV y b

/-- The answer is a next state that `p` accepts. -/
def nextIs (o : Outcome) (p : State → Bool) : Bool :=
  match o with
  | .next t => p t
  | .fault _ => false
  | .refused _ => false

/-- One step of the word `w` at the state's pc answers a next state that `p` accepts. -/
def stepOf (w : Nat) (s : State) (p : State → Bool) : Bool := nextIs (step (s.withFetchWord 16 w)) p

/-- T30. -/
theorem test_jp : stepOf 0x1234 State.reset (fun t => t.pc == 0x234) = true := by decide

/-- T35. -/
theorem test_call : stepOf 0x2300 { State.reset with pc := 0x240, sp := 14 }
    (fun t => t.stack[14] == 0x242 && t.sp == 15 && t.pc == 0x300) = true := by decide

/-- T36. -/
theorem test_call_overflow : stepOf 0x2300 { State.reset with pc := 0x240, sp := 15 }
    (fun t => t.run == .halted (.stackOverflow 0x240) && t.pc == 0x240) = true := by decide

/-- T37. -/
theorem test_ret : stepOf 0x00EE
    { State.reset with pc := 0x300, sp := 1, stack := State.reset.stack.set 0 0x202 }
    (fun t => t.sp == 0 && t.pc == 0x202 && t.stack[0] == 0x202) = true := by decide

/-- T38. -/
theorem test_ret_underflow : stepOf 0x00EE { State.reset with pc := 0x300 }
    (fun t => t.run == .halted (.stackUnderflow 0x300) && t.pc == 0x300) = true := by decide

/-- T41. -/
theorem test_jpV0 : stepOf 0xBFFF (regs 0 0xFF 5 0x80) (fun t => t.pc == 0x10FE) = true := by decide

/-- T43. -/
theorem test_seImm : stepOf 0x3342 (regs 3 0x42 4 0) (fun t => t.pc == 0x204) = true ∧
    stepOf 0x3343 (regs 3 0x42 4 0) (fun t => t.pc == 0x202) = true := by decide

/-- T44. -/
theorem test_sneImm : stepOf 0x4342 (regs 3 0x42 4 0) (fun t => t.pc == 0x202) = true ∧
    stepOf 0x4343 (regs 3 0x42 4 0) (fun t => t.pc == 0x204) = true := by decide

/-- T45, T46. -/
theorem test_seReg : stepOf 0x5120 (regs 1 7 2 7) (fun t => t.pc == 0x204) = true ∧
    stepOf 0x5120 (regs 1 7 2 8) (fun t => t.pc == 0x202) = true := by decide

/-- T46, T47. -/
theorem test_sneReg : stepOf 0x9120 (regs 1 7 2 8) (fun t => t.pc == 0x204) = true ∧
    stepOf 0x9110 (regs 1 7 2 8) (fun t => t.pc == 0x202) = true := by decide

/-- T50. -/
theorem test_ldImm : stepOf 0x6A5C State.reset (fun t => t.readV 0xA == 0x5C && t.pc == 0x202) = true := by
  decide

/-- T51. -/
theorem test_addImm : stepOf 0x77FF (regs 7 0x01 0xF 0x5A)
    (fun t => t.readV 7 == 0 && t.readV 0xF == 0x5A) = true := by decide

/-- T53. -/
theorem test_ldReg : stepOf 0x8120 (regs 1 0x11 2 0x22) (fun t => t.readV 1 == 0x22) = true := by decide

/-- T54. -/
theorem test_or : stepOf 0x8121 ((regs 1 0x0F 2 0xF0).writeV 0xF 0x77)
    (fun t => t.readV 1 == 0xFF && t.readV 0xF == 0x77) = true := by decide

/-- T55. -/
theorem test_and : stepOf 0x8122 (regs 1 0x3C 2 0x0F) (fun t => t.readV 1 == 0x0C) = true := by decide

/-- T56. -/
theorem test_xor : stepOf 0x8123 (regs 1 0xFF 2 0x0F) (fun t => t.readV 1 == 0xF0) = true := by decide

/-- W2. -/
theorem test_addReg : stepOf 0x8014 (regs 0 0xFF 1 0x01)
    (fun t => t.readV 0 == 0x00 && t.readV 0xF == 1) = true := by decide

/-- T70. -/
theorem test_addReg_into_VF : stepOf 0x8F14 (regs 0xF 0xFF 1 0x01) (fun t => t.readV 0xF == 0x00) = true := by
  decide

/-- T60. -/
theorem test_sub_equal : stepOf 0x8015 (regs 0 7 1 7)
    (fun t => t.readV 0 == 0 && t.readV 0xF == 0) = true := by decide

/-- W4. -/
theorem test_sub : stepOf 0x8015 (regs 0 5 1 3) (fun t => t.readV 0 == 2 && t.readV 0xF == 1) = true := by
  decide

/-- T67. -/
theorem test_shr : stepOf 0x8016 (regs 0 0xFF 1 0x00)
    (fun t => t.readV 0 == 0x7F && t.readV 0xF == 1) = true := by decide

/-- T62, T63. -/
theorem test_subn : stepOf 0x8017 (regs 0 3 1 5) (fun t => t.readV 0 == 2 && t.readV 0xF == 1) = true ∧
    stepOf 0x8017 (regs 0 5 1 3) (fun t => t.readV 0 == 0xFE && t.readV 0xF == 0) = true := by decide

/-- T68. -/
theorem test_shl : stepOf 0x820E (regs 2 0x81 1 0)
    (fun t => t.readV 2 == 0x02 && t.readV 0xF == 1) = true := by decide

/-- T77: a bit clear in kk is clear in Vx, whatever the draw. -/
theorem test_rnd : ∃ t, exec (.rnd 3 0xF0) State.reset = .next t ∧ t.readV 3 &&& 0x0F = 0 :=
  ⟨_, rfl, by simp [BitVec.and_assoc]⟩

/-- T80. -/
theorem test_ldI : stepOf 0xA123 State.reset (fun t => t.I == 0x123) = true := by decide

/-- T82, T83. -/
theorem test_ldF : stepOf 0xF029 (regs 0 0x0F 1 0) (fun t => t.I == 0x04B) = true ∧
    stepOf 0xF029 (regs 0 0x10 1 0) (fun t => t.I == 0x050) = true := by decide

/-- T85. -/
theorem test_ldB : stepOf 0xF533 ((regs 5 0xEA 1 0).setI 0x300)
    (fun t => t.byteAt 0x300 == 2 && t.byteAt 0x301 == 3 && t.byteAt 0x302 == 4 && t.I == 0x300) = true := by
  decide

/-- T90: refused, and the state has no byte written. -/
theorem test_ldB_font : stepOf 0xF533 ((regs 5 0xEA 1 0).setI 0x04E)
    (fun t => t.run == .refused (.fontRegionWrite 0x04E) && t.byteAt 0x050 == 0) = true := by decide

/-- T93. -/
theorem test_ldMem : stepOf 0xF155 ((regs 0 1 1 2).setI 0x300)
    (fun t => t.byteAt 0x300 == 1 && t.byteAt 0x301 == 2 && t.byteAt 0x302 == 0 && t.I == 0x300) = true := by
  decide

/-- T96. -/
theorem test_ldMem_outside : stepOf 0xF255 ((regs 0 1 1 2).setI 0xFFE)
    (fun t => t.run == .halted (.outOfBoundsAddress 0x1000) && t.byteAt 0xFFE == 0) = true := by decide

/-- T98. -/
theorem test_ldVxMem : stepOf 0xF465 (regs 5 9 6 9)
    (fun t => t.readV 0 == 0xF0 && t.readV 1 == 0x90 && t.readV 4 == 0xF0 && t.readV 5 == 9) = true := by decide

/-- T102. -/
theorem test_addI : stepOf 0xF01E ((regs 0 0xFF 1 0).setI 0xFFF) (fun t => t.I == 0x10FE) = true := by decide

/-- T103. -/
theorem test_addI_wraps : stepOf 0xF01E ((regs 0 0x02 1 0).setI 0xFFFF) (fun t => t.I == 0x0001) = true := by
  decide

/-- T110. -/
theorem test_cls : stepOf 0x00E0 (State.reset.setFb (togglePixel State.reset.fb 5 3))
    (fun t => !t.pixel 5 3 && t.pc == 0x202) = true := by decide

/-- W8. -/
theorem test_drw_wraps : stepOf 0xD011
    { (regs 0 0x3C 1 0).setI 0x300 with mem := [(0x300, 0xFF)] }
    (fun t => t.pixel 60 0 && t.pixel 63 0 && t.pixel 3 0 && !t.pixel 4 0 && t.readV 0xF == 0 && t.dirty)
      = true := by decide

/-- T117. -/
theorem test_drw_collides : stepOf 0xD001
    { (State.reset.setFb (togglePixel State.reset.fb 7 0)).setI 0x300 with mem := [(0x300, 0x03)] }
    (fun t => t.pixel 6 0 && !t.pixel 7 0 && t.readV 0xF == 1) = true := by decide

/-- T130, T131. -/
theorem test_skp : stepOf 0xE19E ((regs 1 5 2 0).setKey 5 true) (fun t => t.pc == 0x204) = true ∧
    stepOf 0xE19E (regs 1 5 2 0) (fun t => t.pc == 0x202) = true := by decide

/-- T132, T133. -/
theorem test_sknp : stepOf 0xE1A1 (regs 1 5 2 0) (fun t => t.pc == 0x204) = true ∧
    stepOf 0xE1A1 ((regs 1 5 2 0).setKey 5 true) (fun t => t.pc == 0x202) = true := by decide

/-- T139. -/
theorem test_ldVxDt : stepOf 0xF507 (State.reset.setDT 0x3C) (fun t => t.readV 5 == 0x3C) = true := by decide

/-- T135. -/
theorem test_ldVxK_waits : stepOf 0xF30A State.reset (fun t => t.pc == 0x200 && t.readV 3 == 0) = true := by
  decide

/-- T137. -/
theorem test_ldVxK : stepOf 0xF30A (State.reset.setKey 4 true)
    (fun t => t.readV 3 == 4 && t.pc == 0x202) = true := by decide

/-- T140. -/
theorem test_ldDtVx : stepOf 0xF215 (regs 2 0x0A 1 0) (fun t => t.DT == 0x0A) = true := by decide

/-- T141. -/
theorem test_ldStVx : stepOf 0xF218 (regs 2 0x02 1 0) (fun t => t.ST == 0x02 && t.tone) = true := by decide

/-- T22. -/
theorem test_unknown_at_the_end : nextIs (step { State.reset with pc := 0xFFE })
    (fun t => t == { State.reset with pc := 0x1000, reports := [⟨0xFFE, 0⟩] }) = true := by decide

/-- T24. -/
theorem test_fetch_outside : nextIs (step { State.reset with pc := 0xFFF })
    (fun t => t == { State.reset with pc := 0xFFF, run := .halted (.outOfBoundsAddress 0x1000) }) = true := by
  decide

/-! ### Witnesses: for each statement, states and operands that meet its hypotheses, at the edges of each clause -/

/-- A state about to fetch the word 6A5C. -/
def atLdImm : State := { State.reset with mem := [(0x200, 0x6A), (0x201, 0x5C)] }

/-- A state whose pc cannot be fetched from. -/
def atEnd : State := { State.reset with pc := 0xFFF }

/-- The font region writable, or silently kept. -/
def withFontWrite (f : FontWrite) (s : State) : State := { s with params := { s.params with fontWrite := f } }

/-- The address ranges of ResetLeavesTheTable and HostResetFromAnyState, and the last n of NoRomRunsToTheEnd. -/
theorem test_witness_ranges : 0x04F < 80 ∧ (0x50 ≤ 0x050 ∧ 0xFFF ≤ 0xFFF) ∧ 1792 ≤ 1792 := by decide

theorem test_witness_StepKeepsInvariant : ∃ s t : State, MachineInv s ∧ step s = .next t :=
  ⟨State.reset, _, afterReset_inv _ _ _, rfl⟩

/-- Every kind of move, in one session. -/
def someMoves : List Move :=
  [.reset, .loadRom [0x6A, 0x5C], .setKey 3 true, .tick, .runCycle, .consumeFrame]

theorem test_witness_SessionsKeepInvariant :
    ∃ (c c' : Session) (ms : List Move), MachineInv c.core ∧ c.moves ms = some c' ∧ ms = someMoves :=
  ⟨Session.start, _, _, afterReset_inv _ _ _, rfl, rfl⟩

theorem test_witness_SessionsKeepParameters :
    ∃ (c c' : Session) (ms : List Move), c.moves ms = some c' ∧ ms = someMoves :=
  ⟨Session.start, _, _, rfl, rfl⟩

theorem test_witness_OnlyResetLeavesHalted (m : Move) (hm : m = .reset ∨ m = .tick ∨ m = .runCycle) :
    ∃ c c' : Session, c.core.run ≠ .running ∧ c.move m = some c' := by
  refine ⟨{ core := atEnd.haltedBy (.outOfBoundsAddress 0x1000), romAllowed := false }, ?_⟩
  rcases hm with rfl | rfl | rfl <;> exact ⟨_, by decide, rfl⟩

theorem test_witness_LoadRomPlacesBytes :
    (List.replicate 3584 (0x6A : Byte)).length ≤ 3584 ∧ 3584 < (List.replicate 3585 (0x6A : Byte)).length := by
  rw [List.length_replicate, List.length_replicate]
  decide

theorem test_witness_LoadRomOnlyBeforeFirstCycle :
    (∃ c c' : Session, c.move .reset = some c') ∧
    (∃ c c' : Session, c.move .runCycle = some c' ∧ c.core.run = .running) ∧
    (∃ c c' : Session, c.move .runCycle = some c' ∧ c.core.run ≠ .running ∧ c.romAllowed = false) ∧
    (∃ c c' : Session, c.move .runCycle = some c' ∧ c.core.run ≠ .running ∧ c.romAllowed = true) ∧
    (∃ (c c' : Session) (m : Move), c.move m = some c' ∧ m ≠ .runCycle ∧ m ≠ .reset) :=
  ⟨⟨Session.start, _, rfl⟩, ⟨Session.start, _, rfl, rfl⟩,
    ⟨⟨atEnd.haltedBy (.outOfBoundsAddress 0x1000), false⟩, _, rfl, by decide, rfl⟩,
    ⟨⟨State.reset.haltedBy (.romTooLarge 3585), true⟩, _, rfl, by decide, rfl⟩,
    ⟨Session.start, _, .tick, rfl, by decide, by decide⟩⟩

/-- At 0x050 with the default P_FONT_WRITE, at 0x000 with Store, and reads that end and begin beside it. -/
theorem test_witness_BlockReadAfterWrite :
    (∃ m', storeBytes Config.standard 0x050 [1, 2] [] = .ok m' ∧ 0x4F < 0x050 ∧ 0x04F + 1 ≤ 0x050) ∧
    (∃ m', storeBytes (withFontWrite .store State.reset).params 0x000 [1, 2] [] = .ok m' ∧ 0x000 + 2 ≤ 0x002) :=
  ⟨⟨_, rfl, by decide, by decide⟩, ⟨_, rfl, by decide⟩⟩

theorem test_witness_CanonicalMemoriesAreEqual :
    memoryWf Config.standardFont [(0x000, 0x01), (0xFFF, 0x02)] = true := by decide

theorem test_witness_PartsDetermineState :
    memoryWf atLdImm.params.font atLdImm.mem = true ∧ ∀ p : Part, p.Same atLdImm atLdImm :=
  ⟨by decide, fun p => .refl p _⟩

/-- Each clause at its edge: 0xFFF, 0x1000, 0x050, and 0x04F with each setting. -/
theorem test_witness_AccessPrimitives :
    0xFFF ≤ 0xFFF ∧ 0xFFF < 0x1000 ∧ (0x4F < 0x050 ∧ 0x050 ≤ 0xFFF) ∧ 0x04F ≤ 0x4F ∧
    ∀ f, (withFontWrite f State.reset).params.fontWrite = f := by
  refine ⟨by decide, by decide, by decide, by decide, fun f => rfl⟩

theorem test_witness_EncodeOfDecode : decode false 0x8126 = .instr (.shr 1) := by decide

theorem test_witness_DecoderIsTheOpcodeMap :
    opcodeMap[0]? = some ⟨0xFFFF, 0x00E0⟩ ∧ opcodeMap[33]? = some ⟨0xF0FF, 0xF01E⟩ := by decide

theorem test_witness_FetchIsBigEndian :
    { State.reset with pc := 0xFFE }.pc.toNat ≤ 0xFFE ∧ 0xFFE < atEnd.pc.toNat := by decide

theorem test_witness_StepRunsDecodedInstruction : atLdImm.canFetch ∧
    decode atLdImm.params.addI atLdImm.nextWord = .instr (.ldImm 0xA 0x5C) :=
  ⟨⟨rfl, by decide⟩, by decide⟩

theorem test_witness_StepReportsUnknown : State.reset.canFetch ∧
    decode State.reset.params.addI State.reset.nextWord = .unknown State.reset.nextWord :=
  ⟨⟨rfl, by decide⟩, by decide⟩

theorem test_witness_UnfetchablePcHalts : atEnd.run = .running ∧ 0xFFE < atEnd.pc.toNat := by decide

theorem test_witness_RunCycleOnlyWhileRunning : State.reset.run = .running ∧
    (State.reset.haltedBy (.stackUnderflow 0x200)).run ≠ .running := by decide

theorem test_witness_ErrorsArePrecise : ∃ t, atEnd.run = .running ∧ step atEnd = .next t ∧ t.run ≠ .running :=
  ⟨_, rfl, rfl, by decide⟩

theorem test_witness_PlacedWordRunsNext : decodeTableWord 16 0xD125 = some (.drw 1 2 5) := by decide

/-- The last two bytes of memory, and the first two with P_FONT_WRITE Store. -/
theorem test_witness_StoredBytesAreFetched :
    ((0 : Ix).val < (1 : Ix).val ∧ (State.reset.setI 0xFFE).dataAddr + (1 : Ix).val ≤ 0xFFF ∧
      0x4F < (State.reset.setI 0xFFE).dataAddr) ∧
    (withFontWrite .store State.reset).dataAddr + (1 : Ix).val ≤ 0xFFF ∧
    (withFontWrite .store State.reset).params.fontWrite = .store := by decide

theorem test_witness_EveryInstructionFrame :
    ∃ t, exec (.ldMemVx 2) (State.reset.setI 0x300) = .next t ∧ t.run = .running :=
  ⟨_, rfl, rfl⟩

theorem test_witness_HeldReturnAddressesStay : ∃ (s t : State) (j : Ix), step s = .next t ∧ j < s.sp :=
  ⟨{ State.reset with sp := 1 }, _, 0, rfl, by decide⟩

theorem test_witness_UnreadStateDoesNotFlow :
    (∃ t, exec (.skp 0) (State.reset.setKey 0 true) = .next t ∧ readsKeys (.skp 0) = true) ∧
    (∃ t, exec (.ldDtVx 0) State.reset = .next t ∧ readsKeys (.ldDtVx 0) = false) :=
  ⟨⟨_, rfl, by decide⟩, ⟨_, rfl, by decide⟩⟩

theorem test_witness_jumps_to_the_end : State.reset.run = .running ∧
    0xFFE < (jumpOffset 0xFFE ((regs 0 0x01 1 0).readV 0)).toNat := by decide

theorem test_witness_CallPushesReturnAddress :
    { State.reset with sp := 14 }.sp ≠ 15 ∧ { State.reset with sp := 15 }.sp = 15 := by decide

theorem test_witness_ReturnPopsPc : { State.reset with sp := 1 }.sp ≠ 0 ∧ State.reset.sp = 0 := by decide

theorem test_witness_CallReturnRoundTrip : ∃ t u : State, State.reset.sp ≠ 15 ∧
    exec (.call 0x300) State.reset = .next t ∧ u.sp = t.sp ∧
    u.stack[State.reset.sp] = t.stack[State.reset.sp] :=
  ⟨_, _, by decide, rfl, rfl, rfl⟩

/-- The clause about VF: a destination that is not VF, in AddSetsCarry, SubtractSetsStrictFlag, ShiftsByOne. -/
theorem test_witness_flag_destination : (14 : Ix) ≠ 15 := by decide

/-- The last three bytes of memory; the end of the font region with Discard and with Store; and, for each
of the three stored bytes, the condition on the font region. -/
theorem test_witness_BcdStoresDigits :
    ((State.reset.setI 0xFFD).dataAddr + 2 ≤ 0xFFF ∧ 0x4F < (State.reset.setI 0xFFD).dataAddr) ∧
    ((withFontWrite .discard (State.reset.setI 0x04F)).dataAddr ≤ 0x4F ∧
      (withFontWrite .discard State.reset).params.fontWrite ≠ .refuse ∧
      ¬ (withFontWrite .discard (State.reset.setI 0x04F)).dataAddr + 1 ≤ 0x4F) ∧
    (withFontWrite .store State.reset).params.fontWrite = .store := by decide

theorem test_witness_BlockStore :
    ((State.reset.setI 0xFF0).dataAddr + (15 : Ix).val ≤ 0xFFF ∧ 0x4F < (State.reset.setI 0xFF0).dataAddr) ∧
    ((withFontWrite .discard (State.reset.setI 0x04F)).dataAddr + (15 : Ix).val ≤ 0xFFF ∧
      (withFontWrite .discard State.reset).params.fontWrite ≠ .refuse) := by decide

theorem test_witness_BlockLoad : (State.reset.setI 0xFF0).dataAddr + (15 : Ix).val ≤ 0xFFF := by decide

theorem test_witness_AccessOutsideMemoryHalts :
    0xFFF < (State.reset.setI 0xFFE).dataAddr + 2 ∧ 0xFFF < (State.reset.setI 0xFF1).dataAddr + (15 : Ix).val ∧
    (15 : Ix) ≠ 0 ∧ 0x1000 < (State.reset.setI 0xFF2).dataAddr + (15 : Ix).val := by decide

theorem test_witness_FontWriteRefused : State.reset.params.fontWrite = .refuse ∧
    State.reset.dataAddr ≤ 0x4F ∧ (State.reset.setI 0x04F).dataAddr ≤ 0x4F := by decide

/-- n = 0 with I at its highest value, and 15 rows that end at the last byte of memory. -/
theorem test_witness_DrawXorsSprite :
    ((0 : Ix) = 0 ∨ (State.reset.setI 0xFFFF).dataAddr + (0 : Ix).val ≤ 0x1000) ∧
    (State.reset.setI 0xFF1).dataAddr + (15 : Ix).val ≤ 0x1000 := by decide

/-- The glyph 0 on a cleared screen overlaps nothing; on a screen with its corner lit it does. -/
theorem test_witness_SpriteOverlaps :
    SpriteCovers State.reset 0 1 5 0 0 ∧ ¬ SpriteOverlaps State.reset 0 1 5 ∧
    SpriteOverlaps (State.reset.setFb (togglePixel State.reset.fb 0 0)) 0 1 5 := by
  refine ⟨⟨0, 0, by decide, by decide, by decide, by decide, by decide⟩, ?_,
    0, 0, ⟨0, 0, by decide, by decide, by decide, by decide, by decide⟩, by decide⟩
  rintro ⟨c, r, -, h⟩
  exact absurd h (by simp [State.reset, State.afterReset, State.pixel, pixelAt])

/-- A draw that leaves its coordinates, and one whose column is in VF, given back before the second draw. -/
theorem test_witness_DrawTwiceRestores :
    (∃ t, exec (.drw 0 1 5) State.reset = .next t ∧ (t.writeFlag 0).readV 0 = State.reset.readV 0 ∧
      (t.writeFlag 0).readV 1 = State.reset.readV 1) ∧
    (∃ t, exec (.drw 15 1 5) (regs 15 10 1 0) = .next t ∧ (t.writeFlag 10).readV 15 = (regs 15 10 1 0).readV 15 ∧
      (t.writeFlag 10).readV 1 = (regs 15 10 1 0).readV 1) :=
  ⟨⟨_, rfl, by decide, by decide⟩, ⟨_, rfl, by decide, by decide⟩⟩

theorem test_witness_KeySkips : ((regs 1 0xF 2 0).readV 1).toNat = (15 : Ix).val := by decide

theorem test_witness_KeyIndexRefused : 0xF < ((regs 1 0x10 2 0).readV 1).toNat := by decide

theorem test_witness_KeyWait :
    (∃ k : Ix, (State.reset.setKey 15 true).keys[k] = true) ∧ ∀ k : Ix, State.reset.keys[k] = false := by decide

end Sys2Proof.Tests
end

section
/-! PROOF. Control transfer: CALL at each depth of the stack, and the compare-and-skip instructions
(40_control.md R105, R106, R111 to R115). -/

namespace Sys2Proof.Machine

/-! ### CALL -/

theorem exec_call (nnn : Addr12) (s : State) :
    exec (.call nnn) s = transact s.pushReturn (fun t => t.setPc (addrOf nnn)) s := rfl

/-- The frame of a push: one slot and the depth. -/
theorem push_onlyChanges (s : State) (w : Word) :
    OnlyChanges (fun p => p = .slot s.sp ∨ p = .sp) s
      { s with stack := s.stack.set s.sp w, sp := s.sp + 1 } := by
  intro p hp
  cases p with
  | slot j =>
    have hne : (s.sp : Nat) ≠ j := fun e => hp (.inl (by rw [Fin.ext e]))
    exact Vector.getElem_set_ne s.sp.isLt j.isLt hne
  | sp => exact absurd (.inr rfl) hp
  | _ => rfl

/-- Below depth 15 a push counts without a wrap (40_control.md R106). -/
theorem sp_succ_val {sp : Ix} (h : sp ≠ 15) : (sp + 1).val = sp.val + 1 :=
  Fin.val_add_one_of_lt (Fin.lt_last_iff_ne_last.2 h)

/-- Settles O37, by the two things a push can do. -/
theorem callPushesReturnAddress : Obligations.CallPushesReturnAddress := by
  intro s nnn
  rw [exec_call]
  rcases pushReturn_cases s with ⟨hsp, hpush⟩ | ⟨hsp, hpush⟩
  · exact ⟨fun h => absurd hsp h, fun _ => transact_error hpush⟩
  · refine ⟨fun _ => ⟨_, transact_ok hpush, ?slot, sp_succ_val hsp, addrOf_toNat nnn, ?frame⟩,
      fun h => absurd h hsp⟩
    case slot => exact Vector.getElem_set_self s.sp.isLt
    case frame =>
      exact ((push_onlyChanges s _).mono fun _ h => h.elim .inl (.inr ∘ .inl)).trans
        ((setPc_onlyChanges _ _).mono fun _ h => .inr (.inr h))

/-! ### SE and SNE -/

/-- A handler that only skips adds 4 to pc when the condition it tests holds, 2 otherwise, and changes nothing
else (40_control.md R115). -/
theorem skipIf_result (s : State) {taken : Bool} {P : Prop} [Decidable P] (h : taken = true ↔ P) :
    ∃ t, (Host.Outcome.next (s.skipIf taken) : Outcome) = .next t ∧
      t.pc = (if P then s.pc + 4 else s.pc + 2) ∧ OnlyChanges (fun p => p = .pc) s t :=
  ⟨_, rfl, by simp [h], setPc_onlyChanges s _⟩

/-- Settles O40: each form skips by the test its row names. -/
theorem compareSkips : Obligations.CompareSkips := fun s _ _ _ =>
  ⟨skipIf_result s beq_iff_eq, skipIf_result s bne_iff_ne,
    skipIf_result s beq_iff_eq, skipIf_result s bne_iff_ne⟩

end Sys2Proof.Machine
end

section
/-! PROOF. Register loads, ADD Vx,kk, moves and bitwise logic: the handlers with one destination and no flag
(41_alu.md R130 to R135). -/

namespace Sys2Proof.Machine

/-- A handler with one destination leaves in Vx the value it computes, so whatever holds of that value holds of Vx;
it advances pc and changes nothing else. The value is read off the state before the cycle, so x = y and x = F are no
special cases. -/
theorem finish_result (s : State) (x : Ix) {v : Byte} (P : Byte → Prop) (value : P v) :
    ∃ t, (Host.Outcome.next (s.finish x v) : Outcome) = .next t ∧ P (t.readV x) ∧ t.pc = s.pc + 2 ∧
      OnlyChanges (fun p => p = .reg x ∨ p = .pc) s t :=
  ⟨_, rfl, by simpa using value, by simp, finish_onlyChanges s x v⟩

/-- Settles O41: the value is kk itself, or a sum of bytes, which wraps modulo 256. -/
theorem immediateLoadAndAdd : Obligations.ImmediateLoadAndAdd := fun s x kk =>
  ⟨finish_result s x (· = kk) rfl,
    finish_result s x (·.toNat = ((s.readV x).toNat + kk.toNat) % 256) (BitVec.toNat_add _ _)⟩

/-- Settles O42: the value is Vy, or the bitwise operation on Vx and Vy, which acts on each bit alone. -/
theorem movesAndLogic : Obligations.MovesAndLogic := fun s x y =>
  ⟨finish_result s x (· = s.readV y) rfl,
    finish_result s x (fun r => ∀ b, r.getLsbD b = ((s.readV x).getLsbD b || (s.readV y).getLsbD b))
      fun _ => BitVec.getLsbD_or,
    finish_result s x (fun r => ∀ b, r.getLsbD b = ((s.readV x).getLsbD b && (s.readV y).getLsbD b))
      fun _ => BitVec.getLsbD_and,
    finish_result s x (fun r => ∀ b, r.getLsbD b = ((s.readV x).getLsbD b != (s.readV y).getLsbD b))
      fun _ => BitVec.getLsbD_xor⟩

end Sys2Proof.Machine
end

section
/-! PROOF. The host interface: SetKey, ConsumeFrame, the tone output and RunCycle
(60_exceptions.md R227, R229 to R231). -/

namespace Sys2Proof.Machine

/-! ### SetKey -/

theorem setKey_onlyChanges (s : State) (k : Ix) (b : Bool) :
    OnlyChanges (fun p => p = .key k) s (s.setKey k b) := by
  intro p hp
  cases p with
  | key j =>
    have hne : k.val ≠ j.val := fun e => hp (congrArg Part.key (Fin.ext e.symm))
    exact Vector.getElem_set_ne k.isLt j.isLt hne
  | _ => rfl

/-- Settles O9: the key vector is read back where it was set. -/
theorem setKeySetsOneKey : Obligations.SetKeySetsOneKey := fun s k b =>
  ⟨Vector.getElem_set_self k.isLt, setKey_onlyChanges s k b⟩

/-! ### ConsumeFrame and the tone output -/

/-- ConsumeFrame is the write of false to dirty (R229). -/
theorem consumeFrame_eq_setDirty (s : State) : s.consumeFrame = s.setDirty false := rfl

theorem consumeFrame_onlyChanges (s : State) :
    OnlyChanges (fun p => p = .dirty) s s.consumeFrame := by
  rw [consumeFrame_eq_setDirty]
  exact setDirty_onlyChanges s false

theorem tone_iff (s : State) : s.tone = true ↔ 0 < s.ST.toNat := decide_eq_true_iff

/-- Settles O10. -/
theorem consumeFrameAndTone : Obligations.ConsumeFrameAndTone := fun s =>
  ⟨s.consumeFrame_dirty, consumeFrame_onlyChanges s, tone_iff s⟩

/-! ### RunCycle -/

/-- Settles O26, by the two laws of a step: that of a running engine and that of a stopped one. -/
theorem runCycleOnlyWhileRunning : Obligations.RunCycleOnlyWhileRunning := fun _ =>
  ⟨step_running, step_stopped⟩

end Sys2Proof.Machine
end

section
/-! PROOF. The encoder and the decoder: each undoes the other, the decoder is the opcode map, and the words it
leaves Unknown (30_encoding.md R86 to R95). -/

namespace Sys2Proof

open Machine

/-! ### Decoding an encoding -/

theorem decode_encode (i : Instr) : Laws.RoundTrip.Statement i := by
  cases i with
  | cls => exact Laws.RoundTrip.cls
  | ret => exact Laws.RoundTrip.ret
  | jp nnn => exact Laws.RoundTrip.jp nnn
  | call nnn => exact Laws.RoundTrip.call nnn
  | seImm x kk => exact Laws.RoundTrip.seImm x kk
  | sneImm x kk => exact Laws.RoundTrip.sneImm x kk
  | seReg x y => exact Laws.RoundTrip.seReg x y
  | sneReg x y => exact Laws.RoundTrip.sneReg x y
  | ldImm x kk => exact Laws.RoundTrip.ldImm x kk
  | addImm x kk => exact Laws.RoundTrip.addImm x kk
  | ldReg x y => exact Laws.RoundTrip.ldReg x y
  | or x y => exact Laws.RoundTrip.or x y
  | and x y => exact Laws.RoundTrip.and x y
  | xor x y => exact Laws.RoundTrip.xor x y
  | addReg x y => exact Laws.RoundTrip.addReg x y
  | sub x y => exact Laws.RoundTrip.sub x y
  | shr x => exact Laws.RoundTrip.shr x
  | subn x y => exact Laws.RoundTrip.subn x y
  | shl x => exact Laws.RoundTrip.shl x
  | ldI nnn => exact Laws.RoundTrip.ldI nnn
  | jpV0 nnn => exact Laws.RoundTrip.jpV0 nnn
  | rnd x kk => exact Laws.RoundTrip.rnd x kk
  | drw x y n => exact Laws.RoundTrip.drw x y n
  | skp x => exact Laws.RoundTrip.skp x
  | sknp x => exact Laws.RoundTrip.sknp x
  | ldVxDt x => exact Laws.RoundTrip.ldVxDt x
  | ldVxK x => exact Laws.RoundTrip.ldVxK x
  | ldDtVx x => exact Laws.RoundTrip.ldDtVx x
  | ldStVx x => exact Laws.RoundTrip.ldStVx x
  | ldFVx x => exact Laws.RoundTrip.ldFVx x
  | ldBVx x => exact Laws.RoundTrip.ldBVx x
  | ldMemVx x => exact Laws.RoundTrip.ldMemVx x
  | ldVxMem x => exact Laws.RoundTrip.ldVxMem x
  | addIVx x => exact Laws.RoundTrip.addIVx x

/-- The one instruction a machine can lack is ADD I,Vx, and it lacks it without P_ADD_I (R95). -/
theorem not_wellFormed {addI : Bool} {i : Instr} (h : ¬ i.wellFormed addI = true) :
    addI = false ∧ ∃ x, i = .addIVx x := by
  cases i with
  | addIVx x => exact ⟨Bool.eq_false_iff.2 h, x, rfl⟩
  | _ => exact absurd rfl h

theorem decode_encode_addIVx_false (x : Ix) :
    decode false (encode (.addIVx x)) = .unknown (encode (.addIVx x)) := by
  simp [encode, decode, decodeClassF, opField_encXkk, kkField_encXkk]

/-- Settles O17: by the round trip of each constructor, and by the one constructor a machine can lack. -/
theorem decodeOfEncode : Obligations.DecodeOfEncode := by
  intro addI i
  split
  · next h => exact decode_encode i addI h
  · next h =>
    obtain ⟨rfl, x, rfl⟩ := not_wellFormed h
    exact decode_encode_addIVx_false x

/-! ### Encoding what was decoded -/

/-- A word is made of its fields, in each of the formats of R85. -/
theorem encNnn_fields {w : Word} {op : BitVec 4} (h : (opField w).toNat = op.toNat) :
    encNnn op (nnnField w) = w := by
  apply BitVec.eq_of_toNat_eq
  rw [encNnn_toNat, nnnField_toNat, ← h, opField_toNat]
  omega

theorem encXkk_fields {w : Word} {op : BitVec 4} {kk : Byte} (h : (opField w).toNat = op.toNat)
    (hk : (kkField w).toNat = kk.toNat) : encXkk op (xField w) kk = w := by
  apply BitVec.eq_of_toNat_eq
  rw [encXkk_toNat, xField_val, ← hk, kkField_toNat, ← h, opField_toNat]
  omega

theorem encXyn_fields {w : Word} {op : BitVec 4} {n : Ix} (h : (opField w).toNat = op.toNat)
    (hn : (nField w).val = n.val) : encXyn op (xField w) (yField w) n = w := by
  apply BitVec.eq_of_toNat_eq
  rw [encXyn_toNat, xField_val, yField_val, ← hn, nField_val, ← h, opField_toNat]
  omega

/-- With y written as 0, the word less its y field (R89). -/
theorem encXyn_fields_zero {w : Word} {op : BitVec 4} {n : Ix} (h : (opField w).toNat = op.toNat)
    (hn : (nField w).val = n.val) : encXyn op (xField w) 0 n = w &&& 0xFF0F := by
  apply BitVec.eq_of_toNat_eq
  rw [encXyn_toNat, xField_val, ← hn, nField_val, ← h, opField_toNat, and_FF0F_toNat]
  simp only [Fin.val_zero]
  omega

/-- What is claimed of each word a class of the decoder reads as an instruction. -/
def ReadsBack (addI : Bool) (w : Word) (d : Decoded) : Prop :=
  ∀ i, d = .instr i → encode i = usedBits i w ∧ i.wellFormed addI = true

theorem ReadsBack.unknown (addI : Bool) (w w' : Word) : ReadsBack addI w (.unknown w') :=
  fun _ h => nomatch h

theorem ReadsBack.instr {addI : Bool} {w : Word} {i : Instr} (he : encode i = usedBits i w)
    (hw : i.wellFormed addI = true) : ReadsBack addI w (.instr i) := by
  rintro _ ⟨⟩
  exact ⟨he, hw⟩

theorem decodeClass0_readsBack (addI : Bool) (w : Word) : ReadsBack addI w (decodeClass0 w) := by
  unfold decodeClass0
  split
  · next h => exact .instr h.symm rfl
  · split
    · next h => exact .instr h.symm rfl
    · exact .unknown addI w w

theorem decodeClass8_readsBack (addI : Bool) {w : Word} (h : (opField w).toNat = 0x8) :
    ReadsBack addI w (decodeClass8 w) := by
  unfold decodeClass8
  split
  case h_7 hn => exact .instr (encXyn_fields_zero h hn) rfl
  case h_9 hn => exact .instr (encXyn_fields_zero h hn) rfl
  case h_10 => exact .unknown addI w w
  all_goals
    next hn => exact .instr (encXyn_fields h hn) rfl

theorem decodeClassE_readsBack (addI : Bool) {w : Word} (h : (opField w).toNat = 0xE) :
    ReadsBack addI w (decodeClassE w) := by
  unfold decodeClassE
  split
  · next hk => exact .instr (encXkk_fields h hk) rfl
  · next hk => exact .instr (encXkk_fields h hk) rfl
  · exact .unknown addI w w

theorem decodeClassF_readsBack (addI : Bool) {w : Word} (h : (opField w).toNat = 0xF) :
    ReadsBack addI w (decodeClassF addI w) := by
  unfold decodeClassF
  split
  case h_5 hk =>
    split
    · next ha => exact .instr (encXkk_fields h hk) ha
    · exact .unknown addI w w
  case h_10 => exact .unknown addI w w
  all_goals
    next hk => exact .instr (encXkk_fields h hk) rfl

theorem decode_readsBack (addI : Bool) (w : Word) : ReadsBack addI w (decode addI w) := by
  unfold decode
  split
  case h_1 => exact decodeClass0_readsBack addI w
  case h_6 h | h_10 h =>
    split
    · next hn => exact .instr (encXyn_fields h (congrArg Fin.val hn)) rfl
    · exact .unknown addI w w
  case h_9 h => exact decodeClass8_readsBack addI h
  case h_14 h => exact .instr (encXyn_fields h rfl) rfl
  case h_15 h => exact decodeClassE_readsBack addI h
  case h_16 h => exact decodeClassF_readsBack addI h
  case h_17 => exact .unknown addI w w
  case h_2 h | h_3 h | h_11 h | h_12 h => exact .instr (encNnn_fields h) rfl
  all_goals
    next h => exact .instr (encXkk_fields h rfl) rfl

/-- Settles O18, by the classes of the decoder. -/
theorem encodeOfDecode : Obligations.EncodeOfDecode := fun addI w i => decode_readsBack addI w i

/-! ### The opcode map -/

/-- The row of the opcode map a decoded word belongs to. -/
def Decoded.row : Decoded → Option Nat
  | .instr i => some i.rowNo
  | .unknown _ => none

theorem Decoded.row_eq_some_iff (d : Decoded) (k : Nat) :
    d.row = some k ↔ ∃ i, d = .instr i ∧ i.rowNo = k := by
  cases d <;> simp [Decoded.row]

theorem encNnn_and_F000 (op : BitVec 4) (nnn : Addr12) : encNnn op nnn &&& 0xF000 = encNnn op 0#12 := by
  apply BitVec.eq_of_toNat_eq
  rw [and_F000_toNat, encNnn_toNat, encNnn_toNat, BitVec.toNat_zero]
  omega

theorem encXkk_and_F000 (op : BitVec 4) (x : Ix) (kk : Byte) : encXkk op x kk &&& 0xF000 = encNnn op 0#12 := by
  apply BitVec.eq_of_toNat_eq
  rw [and_F000_toNat, encXkk_toNat, encNnn_toNat, BitVec.toNat_zero]
  omega

theorem encXyn_and_F000 (op : BitVec 4) (x y n : Ix) : encXyn op x y n &&& 0xF000 = encNnn op 0#12 := by
  apply BitVec.eq_of_toNat_eq
  rw [and_F000_toNat, encXyn_toNat, encNnn_toNat, BitVec.toNat_zero]
  omega

theorem encXkk_and_F0FF (op : BitVec 4) (x : Ix) (kk : Byte) :
    encXkk op x kk &&& 0xF0FF = encXkk op 0 kk := by
  apply BitVec.eq_of_toNat_eq
  rw [and_F0FF_toNat, encXkk_toNat, encXkk_toNat, Fin.val_zero]
  omega

theorem encXyn_and_F00F (op : BitVec 4) (x y n : Ix) :
    encXyn op x y n &&& 0xF00F = encXyn op 0 0 n := by
  apply BitVec.eq_of_toNat_eq
  rw [and_F00F_toNat, encXyn_toNat, encXyn_toNat, Fin.val_zero]
  omega

/-- An encoding has the fixed bits of its row. -/
theorem encode_matches (i : Instr) {row : OpRow} (hrow : opcodeMap[i.rowNo]? = some row) :
    encode i &&& row.mask = row.pattern := by
  cases i <;> cases hrow
  case cls | ret => rfl
  case jp | call | ldI | jpV0 => exact encNnn_and_F000 _ _
  case seImm | sneImm | ldImm | addImm | rnd => exact encXkk_and_F000 _ _ _
  case drw => exact encXyn_and_F000 _ _ _ _
  case skp | sknp | ldVxDt | ldVxK | ldDtVx | ldStVx | ldFVx | ldBVx | ldMemVx | ldVxMem | addIVx =>
    exact encXkk_and_F0FF _ _ _
  all_goals exact encXyn_and_F00F _ _ _ _

/-- The bits a row ignores are outside its mask (R89). -/
theorem usedBits_and_mask (i : Instr) (w : Word) {row : OpRow} (hrow : opcodeMap[i.rowNo]? = some row) :
    usedBits i w &&& row.mask = w &&& row.mask := by
  cases i
  case shr | shl =>
    cases hrow
    simp [usedBits, BitVec.and_assoc]
  all_goals rfl

theorem op_of_and_F000 {w p : Word} (h : w &&& 0xF000 = p) : (opField w).toNat = p.toNat / 4096 := by
  rw [← h, and_F000_toNat, opField_toNat]
  omega

theorem op_n_of_and_F00F {w p : Word} (h : w &&& 0xF00F = p) :
    (opField w).toNat = p.toNat / 4096 ∧ (nField w).val = p.toNat % 16 := by
  rw [← h, and_F00F_toNat, opField_toNat, nField_val]
  omega

theorem op_kk_of_and_F0FF {w p : Word} (h : w &&& 0xF0FF = p) :
    (opField w).toNat = p.toNat / 4096 ∧ (kkField w).toNat = p.toNat % 256 := by
  rw [← h, and_F0FF_toNat, opField_toNat, kkField_toNat]
  omega

theorem decode_class8 {w : Word} (addI : Bool) (h : (opField w).toNat = 0x8) : decode addI w = decodeClass8 w := by
  rw [decode, h]
  rfl

theorem decode_classE {w : Word} (addI : Bool) (h : (opField w).toNat = 0xE) : decode addI w = decodeClassE w := by
  rw [decode, h]
  rfl

theorem decode_classF {w : Word} (addI : Bool) (h : (opField w).toNat = 0xF) :
    decode addI w = decodeClassF addI w := by
  rw [decode, h]
  rfl

/-- The rows of the opcode map by the fields that tell them apart: the two exact words, the classes op alone decides,
5xy0 and 9xy0, and the classes 8, E and F. -/
theorem row_groups {k : Nat} (hk : k < 34) :
    k < 2 ∨ (2 ≤ k ∧ k < 6 ∨ 8 ≤ k ∧ k < 10 ∨ 19 ≤ k ∧ k < 23) ∨ (6 ≤ k ∧ k < 8) ∨
      (10 ≤ k ∧ k < 19) ∨ (23 ≤ k ∧ k < 25) ∨ (25 ≤ k ∧ k < 34) := by
  omega

/-- The mask of a row holds the fields the decoder branches on, so a word that matches is decoded to the row. The
rows are numbered as `Instr.rowNo` numbers them. -/
theorem decode_row_of_matches {w : Word} {k : Nat} {row : OpRow} (hrow : opcodeMap[k]? = some row)
    (h : w &&& row.mask = row.pattern) : (decode true w).row = some k := by
  rcases row_groups (List.getElem?_eq_some_iff.1 hrow).1 with
    hexact | hop | ⟨hlo, hhi⟩ | ⟨hlo, hhi⟩ | ⟨hlo, hhi⟩ | ⟨hlo, hhi⟩
  · interval_cases k <;> cases hrow
    all_goals
      rw [show w = _ from (BitVec.and_allOnes (x := w)).symm.trans h]
      rfl
  · obtain ⟨hlo, hhi⟩ | ⟨hlo, hhi⟩ | ⟨hlo, hhi⟩ := hop <;> interval_cases k <;> cases hrow
    all_goals
      rw [decode, op_of_and_F000 h]
      rfl
  · interval_cases k <;> cases hrow
    all_goals
      obtain ⟨hop, hn⟩ := op_n_of_and_F00F h
      rw [decode, hop]
      have hn : nField w = 0 := Fin.ext hn
      simp [hn, Decoded.row, Instr.rowNo]
  · interval_cases k <;> cases hrow
    all_goals
      obtain ⟨hop, hn⟩ := op_n_of_and_F00F h
      rw [decode_class8 true hop, decodeClass8, hn]
      rfl
  · interval_cases k <;> cases hrow
    all_goals
      obtain ⟨hop, hkk⟩ := op_kk_of_and_F0FF h
      rw [decode_classE true hop, decodeClassE, hkk]
      rfl
  · interval_cases k <;> cases hrow
    all_goals
      obtain ⟨hop, hkk⟩ := op_kk_of_and_F0FF h
      rw [decode_classF true hop, decodeClassF, hkk]
      rfl

/-- A word decoded to an instruction matches the instruction's row. -/
theorem matches_of_decode {w : Word} {i : Instr} (h : decode true w = .instr i) {row : OpRow}
    (hrow : opcodeMap[i.rowNo]? = some row) : w &&& row.mask = row.pattern := by
  rw [← usedBits_and_mask i w hrow, ← (decode_readsBack true w i h).1]
  exact encode_matches i hrow

/-- The words Fx1E, by their fields (R95). -/
theorem matches_addI_iff (w : Word) :
    w &&& 0xF0FF = 0xF01E ↔ (opField w).toNat = 0xF ∧ (kkField w).toNat = 0x1E := by
  rw [← BitVec.toNat_inj, and_F0FF_toNat, opField_toNat, kkField_toNat,
    show (0xF01E : Word).toNat = 0xF01E from rfl]
  omega

theorem decodeClassF_false (w : Word) : decodeClassF false w =
    if (kkField w).toNat = 0x1E then .unknown w else decodeClassF true w := by
  unfold decodeClassF
  split <;> simp_all

/-- P_ADD_I is read in class F alone. -/
theorem decode_eq_of_op_ne {w : Word} (a b : Bool) (h : (opField w).toNat ≠ 0xF) : decode a w = decode b w := by
  unfold decode
  split
  case h_16 h' => exact absurd h' h
  all_goals rfl

theorem decode_false (w : Word) :
    decode false w = if w &&& 0xF0FF = 0xF01E then .unknown w else decode true w := by
  simp only [matches_addI_iff]
  by_cases h : (opField w).toNat = 0xF
  · rw [decode_classF false h, decode_classF true h, decodeClassF_false]
    simp [h]
  · rw [if_neg fun hw => h hw.1]
    exact decode_eq_of_op_ne false true h

/-- Settles O19: a matching word is decoded to the row, and a decoded word has the fixed bits of its row. -/
theorem decoderIsTheOpcodeMap : Obligations.DecoderIsTheOpcodeMap := by
  refine ⟨fun w k row hrow => ⟨fun h => ?_, ?_⟩, decode_false⟩
  · exact (Decoded.row_eq_some_iff _ _).1 (decode_row_of_matches hrow h)
  · rintro ⟨i, hi, rfl⟩
    exact matches_of_decode hi hrow

/-! ### The Unknown words -/

theorem decodeClass0_eq_unknown_iff (w : Word) :
    decodeClass0 w = .unknown w ↔ w ≠ 0x00E0 ∧ w ≠ 0x00EE := by
  unfold decodeClass0
  split
  · next h => simp [h]
  · next h =>
    split
    · next h' => simp [h']
    · next h' => exact ⟨fun _ => ⟨h, h'⟩, fun _ => rfl⟩

theorem decodeClass8_eq_unknown_iff (w : Word) :
    decodeClass8 w = .unknown w ↔ (nField w).val ∈ [0x8, 0x9, 0xA, 0xB, 0xC, 0xD, 0xF] := by
  have := (nField w).isLt
  unfold decodeClass8
  split
  case h_10 =>
    simp only [imp_false, List.mem_cons, List.not_mem_nil, true_iff] at *
    omega
  all_goals next h => simp [h]

theorem decodeClassE_eq_unknown_iff (w : Word) :
    decodeClassE w = .unknown w ↔ (kkField w).toNat ∉ [0x9E, 0xA1] := by
  unfold decodeClassE
  split <;> simp_all

theorem decodeClassF_false_eq_unknown_iff (w : Word) : decodeClassF false w = .unknown w ↔
    (kkField w).toNat ∉ [0x07, 0x0A, 0x15, 0x18, 0x29, 0x33, 0x55, 0x65] := by
  unfold decodeClassF
  split <;> simp_all

/-- Settles O20: class by class; a class with no Unknown words is none of the six spaces. -/
theorem unknownSpace : Obligations.UnknownSpace := by
  intro w
  simp only [← opField_toNat, ← nField_val, ← kkField_toNat]
  unfold decode
  split
  case h_1 h => simp [h, decodeClass0_eq_unknown_iff]
  case h_6 h | h_10 h => simp [h, ← Fin.val_eq_zero_iff]
  case h_9 h => simp [h, decodeClass8_eq_unknown_iff]
  case h_15 h => simp [h, decodeClassE_eq_unknown_iff]
  case h_16 h => simp [h, decodeClassF_false_eq_unknown_iff]
  case h_17 =>
    have := (opField w).isLt
    interval_cases (opField w).toNat <;> contradiction
  all_goals next h => simp [h]

/-- Settles O21. -/
theorem sampleWordsDecode : Obligations.SampleWordsDecode := by
  unfold Obligations.SampleWordsDecode
  decide

end Sys2Proof
end

section
/-! PROOF. The frame of a handler that advances; arithmetic with a flag and the random byte (41_alu.md R136 to
R143). -/

namespace Sys2Proof.Machine

/-- A frame grows by pc alone when the state it leads to advances. -/
theorem OnlyChanges.advance {may : Part → Prop} {s t : State} (h : OnlyChanges may s t) :
    OnlyChanges (fun p => may p ∨ p = .pc) s t.advance :=
  (h.mono fun _ => .inl).trans ((setPc_onlyChanges t _).mono fun _ => .inr)

/-- A handler with a flag leaves in Vx the value and in VF the flag it computes, so whatever holds of these holds of
the registers; when x is F the value stays (R143). -/
theorem finishFlag_next (s : State) (x : Ix) {v flag : Byte} (P Q : Byte → Prop) (value : P v) (bit : Q flag) :
    ∃ t, (Host.Outcome.next (s.finishFlag flag x v) : Outcome) = .next t ∧ P (t.readV x) ∧
      (x ≠ 15 → Q (t.readV 15)) ∧ t.pc = s.pc + 2 ∧
      OnlyChanges (fun p => p = .reg x ∨ p = .reg 15 ∨ p = .pc) s t := by
  obtain ⟨hx, hF, hpc⟩ := finishFlag_result s flag x v
  exact ⟨_, rfl, hx.symm ▸ value, fun h => (hF h).symm ▸ bit, hpc, finishFlag_onlyChanges s flag x v⟩

theorem carryFlag_eq (a b : Byte) : carryFlag a b = if a.toNat + b.toNat > 255 then 1 else 0 := by
  simp [carryFlag, flagByte]

theorem greaterFlag_eq (a b : Byte) : greaterFlag a b = if a.toNat > b.toNat then 1 else 0 := by
  simp [greaterFlag, flagByte]

theorem byte_sub_toNat (a b : Byte) : ((a - b).toNat : Int) = (a.toNat - b.toNat : Int) % 256 := by
  have ha := a.isLt
  have hb := b.isLt
  rw [BitVec.toNat_sub]
  omega

theorem byte_ushiftRight_toNat (a : Byte) : (a >>> 1).toNat = a.toNat / 2 := by
  rw [BitVec.toNat_ushiftRight, Nat.shiftRight_eq_div_pow]

theorem byte_shiftLeft_toNat (a : Byte) : (a <<< 1).toNat = a.toNat * 2 % 256 := by
  rw [BitVec.toNat_shiftLeft, Nat.shiftLeft_eq]

theorem lowBitFlag_toNat (a : Byte) : (lowBitFlag a).toNat = a.toNat % 2 := by
  rw [lowBitFlag, BitVec.toNat_and]
  exact Nat.and_one_is_mod _

theorem highBitFlag_toNat (a : Byte) : (highBitFlag a).toNat = a.toNat / 128 := by
  have ha := a.isLt
  have h : (highBitFlag a).toNat = a.toNat / 2 ^ 7 % 2 := by
    rw [highBitFlag, BitVec.toNat_and, BitVec.toNat_ushiftRight, Nat.shiftRight_eq_div_pow]
    exact Nat.and_one_is_mod _
  omega

/-- Settles O43: bytes add modulo 256, and the flag is the carry of the exact sum. -/
theorem addSetsCarry : Obligations.AddSetsCarry := fun s x y =>
  finishFlag_next s x (·.toNat = ((s.readV x).toNat + (s.readV y).toNat) % 256)
    (· = if (s.readV x).toNat + (s.readV y).toNat > 255 then 1 else 0)
    (BitVec.toNat_add _ _) (carryFlag_eq _ _)

/-- SUB and SUBN are one subtraction, of the operands in the one order and in the other (R137, R139). -/
theorem subtract_next (s : State) (x : Ix) (a b : Byte) :
    ∃ t, (Host.Outcome.next (s.finishFlag (greaterFlag a b) x (a - b)) : Outcome) = .next t ∧
      ((t.readV x).toNat : Int) = (a.toNat - b.toNat : Int) % 256 ∧
      (x ≠ 15 → t.readV 15 = if a.toNat > b.toNat then 1 else 0) ∧
      t.pc = s.pc + 2 ∧ OnlyChanges (fun p => p = .reg x ∨ p = .reg 15 ∨ p = .pc) s t :=
  finishFlag_next s x (fun r => (r.toNat : Int) = (a.toNat - b.toNat : Int) % 256)
    (· = if a.toNat > b.toNat then 1 else 0) (byte_sub_toNat a b) (greaterFlag_eq a b)

/-- Settles O44: one subtraction, with the operands in each order. -/
theorem subtractSetsStrictFlag : Obligations.SubtractSetsStrictFlag := fun s x y =>
  ⟨subtract_next s x (s.readV x) (s.readV y), subtract_next s x (s.readV y) (s.readV x)⟩

/-- Settles O45: a shift by one halves or doubles, and the flag is the bit that falls out. -/
theorem shiftsByOne : Obligations.ShiftsByOne := fun s x =>
  ⟨finishFlag_next s x (·.toNat = (s.readV x).toNat / 2) (·.toNat = (s.readV x).toNat % 2)
      (byte_ushiftRight_toNat _) (lowBitFlag_toNat _),
    finishFlag_next s x (·.toNat = (s.readV x).toNat * 2 % 256) (·.toNat = (s.readV x).toNat / 128)
      (byte_shiftLeft_toNat _) (highBitFlag_toNat _)⟩

/-- The frame of a handler that draws a free value and writes one register. -/
theorem countDraw_finish_onlyChanges (s : State) (x : Ix) (v : Byte) :
    OnlyChanges (fun p => p = .reg x ∨ p = .pc ∨ p = .draws) s (s.countDraw.finish x v) :=
  ((countDraw_onlyChanges s).mono fun _ h => .inr (.inr h)).trans
    ((finish_onlyChanges _ x v).mono fun _ h => h.imp_right .inl)

/-- Settles O46: the byte stays the free value, of which nothing is used. -/
theorem randomIsMasked : Obligations.RandomIsMasked := fun s x kk =>
  ⟨_, _, rfl, by simp, rfl, rfl, rfl, countDraw_finish_onlyChanges s x _⟩

end Sys2Proof.Machine
end

section
/-! PROOF. The loads of I, the timers and the keypad (42_index_memory.md R160, R161, R165; 44_timers_keypad.md R190
to R198). -/

namespace Sys2Proof.Machine

/-! ### The index register -/

/-- Settles O47. -/
theorem indexLoads : Obligations.IndexLoads := fun s nnn x =>
  ⟨⟨_, rfl, addrOf_toNat nnn, rfl, (setI_onlyChanges s _).advance⟩,
    ⟨_, rfl, glyphAddr_toNat (s.readV x), rfl, (setI_onlyChanges s _).advance⟩⟩

/-- Settles O48. -/
theorem indexAddWraps : Obligations.IndexAddWraps := fun s x =>
  ⟨_, rfl, indexPlus_toNat s.I (s.readV x), rfl, (setI_onlyChanges s _).advance⟩

/-! ### The timers -/

/-- Settles O60. -/
theorem timerTransfers : Obligations.TimerTransfers := fun s x =>
  ⟨finish_result s x (· = s.DT) rfl,
    ⟨_, rfl, rfl, rfl, (setDT_onlyChanges s _).advance⟩,
    ⟨_, rfl, rfl, rfl, (setST_onlyChanges s _).advance⟩⟩

/-! ### The keypad -/

theorem exec_skp (x : Ix) (s : State) :
    exec (.skp x) s = transact (keyIndex (s.readV x)) (fun k => s.skipIf s.keys[k]) s := rfl

theorem exec_sknp (x : Ix) (s : State) :
    exec (.sknp x) s = transact (keyIndex (s.readV x)) (fun k => s.skipIf (!s.keys[k])) s := rfl

theorem keyIndex_eq_ok {a : Byte} {k : Ix} (h : a.toNat = k.val) : keyIndex a = .ok k := by
  rcases keyIndex_cases a with ⟨hlt, -⟩ | ⟨k', hk', hok⟩
  · omega
  · rw [hok, Fin.ext (hk'.symm.trans h)]

theorem keyIndex_eq_error {a : Byte} (h : 0xF < a.toNat) :
    keyIndex a = .error (.refuse (.keyIndexOutOfRange a)) := by
  rcases keyIndex_cases a with ⟨-, herr⟩ | ⟨k, hk, -⟩
  · exact herr
  · omega

/-- Settles O57. -/
theorem keySkips : Obligations.KeySkips := by
  intro s x k h
  rw [exec_skp, exec_sknp, transact_ok (keyIndex_eq_ok h), transact_ok (keyIndex_eq_ok h)]
  exact ⟨skipIf_result s Iff.rfl, skipIf_result s (Bool.not_eq_true' _ ▸ Iff.rfl)⟩

/-- Settles O58. -/
theorem keyIndexRefused : Obligations.KeyIndexRefused := fun _ _ h =>
  ⟨transact_error (keyIndex_eq_error h), transact_error (keyIndex_eq_error h)⟩

theorem exec_ldVxK_none {x : Ix} {s : State}
    (h : chooseKey (pressedKeys s.keys) (Config.freeKey s.draws) = none) : exec (.ldVxK x) s = .next s := by
  simp [exec, execLdVxK, h]

theorem exec_ldVxK_some {x k : Ix} {s : State}
    (h : chooseKey (pressedKeys s.keys) (Config.freeKey s.draws) = some k) :
    exec (.ldVxK x) s = .next (s.countDraw.finish x (BitVec.ofNat 8 k.val)) := by
  simp [exec, execLdVxK, h]

/-- Everything a key wait can do: wait, when no key is pressed, or write a pressed key (R196). -/
theorem ldVxK_cases (x : Ix) (s : State) :
    ((∀ k : Ix, s.keys[k] = false) ∧ exec (.ldVxK x) s = .next s) ∨
      ∃ k : Ix, s.keys[k] = true ∧
        exec (.ldVxK x) s = .next (s.countDraw.finish x (BitVec.ofNat 8 k.val)) := by
  rcases chooseKey_cases s.keys (Config.freeKey s.draws) with ⟨hnone, hc⟩ | ⟨k, hk, hc⟩
  · exact .inl ⟨hnone, exec_ldVxK_none hc⟩
  · exact .inr ⟨k, hk, exec_ldVxK_some hc⟩

/-- Settles O59, by the two things a key wait can do. -/
theorem keyWait : Obligations.KeyWait := by
  intro s x
  rcases ldVxK_cases x s with ⟨hnone, he⟩ | ⟨k, hk, he⟩
  · refine ⟨fun ⟨k, hk⟩ => ?_, fun _ => he⟩
    rw [hnone k] at hk
    cases hk
  · refine ⟨fun _ => ⟨_, he, ⟨k, hk, ?_⟩, rfl, countDraw_finish_onlyChanges s x _⟩, fun hnone => ?_⟩
    · have := k.isLt
      simp
      omega
    · rw [hnone k] at hk
      cases hk

end Sys2Proof.Machine
end

section
/-! PROOF. The engine: fetch, a step, its errors, and the run of a machine without a ROM (40_control.md R100, R101;
60_exceptions.md R212 to R218, R231; 70_reset_and_hazards.md R256). -/

namespace Sys2Proof.Machine

/-! ### Fetch and step -/

/-- Settles O22, by the two things a fetch can do. -/
theorem fetchIsBigEndian : Obligations.FetchIsBigEndian := by
  intro s
  rcases fetch_cases s with ⟨hpc, he⟩ | ⟨hpc, he⟩
  · exact ⟨fun _ => ⟨_, he, wordOfBytes_toNat _ _⟩, fun _ => by omega⟩
  · exact ⟨fun _ => by omega, fun _ => he⟩

/-- Settles O23. -/
theorem stepRunsDecodedInstruction : Obligations.StepRunsDecodedInstruction := by
  intro s i hc hd
  rw [step_canFetch hc, hd]
  rfl

theorem reportUnknown_onlyChanges (s : State) (w : Word) :
    OnlyChanges (fun p => p = .pc ∨ p = .reports) s (s.reportUnknown w) := by
  intro p hp
  cases p with
  | pc => exact absurd (.inl rfl) hp
  | reports => exact absurd (.inr rfl) hp
  | _ => rfl

theorem step_unknown {s : State} {w : Word} (hc : s.canFetch)
    (hd : decode s.params.addI s.nextWord = .unknown w) : step s = .next (s.reportUnknown w) := by
  rw [step_canFetch hc, hd]
  rfl

/-- Settles O24. -/
theorem stepReportsUnknown : Obligations.StepReportsUnknown := fun s hc hd =>
  ⟨_, step_unknown hc hd, rfl, rfl, reportUnknown_onlyChanges s s.nextWord⟩

theorem step_unfetchable {s : State} (hr : s.run = .running) (hpc : 0xFFE < s.pc.toNat) :
    step s = .next (s.haltedBy (.outOfBoundsAddress (firstOutside s.pc.toNat))) := by
  rw [step_running hr, cycle]
  rcases fetch_cases s with ⟨h, -⟩ | ⟨-, he⟩
  · omega
  · rw [he]
    rfl

/-- Settles O25. -/
theorem unfetchablePcHalts : Obligations.UnfetchablePcHalts := fun _ => step_unfetchable

/-! ### Every step has a next state -/

theorem transact_next {α : Type} (r : Except Raise α) (k : α → State) (s : State) :
    ∃ t, transact r k s = .next t := by
  cases r with
  | error e => exact ⟨_, rfl⟩
  | ok a => exact ⟨_, rfl⟩

/-- No instruction ends in a fault or a refusal of the host's interface. -/
theorem exec_next (i : Instr) (s : State) : ∃ t, exec i s = .next t := by
  cases i
  case ret | call | drw | ldBVx | ldMemVx | ldVxMem | skp | sknp => exact transact_next _ _ _
  case ldVxK x =>
    rcases ldVxK_cases x s with ⟨-, he⟩ | ⟨k, -, he⟩
    · exact ⟨_, he⟩
    · exact ⟨_, he⟩
  all_goals exact ⟨_, rfl⟩

/-- Settles O27: a failed fetch, a report and a stopped engine give states, and so does every instruction. -/
theorem everyStepHasANextState : Obligations.EveryStepHasANextState := by
  intro s
  by_cases hr : s.run = .running
  · by_cases hpc : 0xFFE < s.pc.toNat
    · exact ⟨_, step_unfetchable hr hpc⟩
    · have hc : s.canFetch := ⟨hr, Nat.lt_of_le_of_lt (Nat.le_of_not_lt hpc) (by decide)⟩
      rw [step_canFetch hc]
      cases decode s.params.addI s.nextWord with
      | instr i => exact exec_next i s
      | unknown w => exact ⟨_, rfl⟩
  · exact ⟨s, step_stopped hr⟩

/-- Settles O28: an error is raised by the fetch or by the instruction, and raising writes run alone. -/
theorem errorsArePrecise : Obligations.ErrorsArePrecise := by
  intro s t hr h hstop
  rcases step_cases h with ⟨hne, -⟩ | ⟨-, -, rfl⟩ | ⟨-, w, -, rfl⟩ | ⟨-, i, -, he⟩
  · exact absurd hr hne
  · rfl
  · exact absurd hr hstop
  · rcases exec_raises_or_keeps_run he with ⟨e, rfl⟩ | hkeep
    · rfl
    · exact absurd (hkeep.trans hr) hstop

/-! ### Placing a word -/

theorem decodeTableWord_eq_some {nbits w : Nat} {i : Instr} (h : decodeTableWord nbits w = some i) :
    decode true (BitVec.ofNat 16 (w % 2 ^ nbits)) = .instr i := by
  unfold decodeTableWord at h
  split at h
  · simp only [decodeBytes, wordOfBytes_hiByte_loByte] at h
    split at h
    · next j hj =>
      cases h
      exact hj
    · cases h
  · cases h

theorem isAddIWord_iff (w : Word) : isAddIWord w = true ↔ w &&& 0xF0FF = 0xF01E := beq_iff_eq

/-- With P_ADD_I raised where the word needs it, every row's word decodes as in the opcode map. -/
theorem decode_or_isAddIWord {w : Word} {i : Instr} (addI : Bool) (h : decode true w = .instr i) :
    decode (addI || isAddIWord w) w = .instr i := by
  by_cases hw : w &&& 0xF0FF = 0xF01E
  · rw [(isAddIWord_iff w).2 hw, Bool.or_true, h]
  · cases addI
    · rw [Bool.eq_false_iff.2 (mt (isAddIWord_iff w).1 hw), Bool.or_false, decode_false, if_neg hw, h]
    · exact h

theorem fetchPlace_lt (s : State) : (fetchPlace s).toNat < Config.lastAddr := by
  unfold fetchPlace
  split
  · assumption
  · decide

theorem placeWord_canFetch (s : State) (w : Word) : (placeWord s w).canFetch := ⟨rfl, fetchPlace_lt s⟩

theorem placeWord_nextWord (s : State) (w : Word) : (placeWord s w).nextWord = w := by
  have hi : (placeWord s w).byteAt (fetchPlace s).toNat = hiByte w := by
    simp [State.byteAt, placeWord, peek_pokeAll]
  have lo : (placeWord s w).byteAt ((fetchPlace s).toNat + 1) = loByte w := by
    simp [State.byteAt, placeWord, peek_pokeAll]
  calc (placeWord s w).nextWord = wordOfBytes (hiByte w) (loByte w) := congrArg₂ wordOfBytes hi lo
    _ = w := wordOfBytes_hiByte_loByte w

/-- Settles O29: the placed word is the one fetched, and decodes as in the opcode map. -/
theorem placedWordRunsNext : Obligations.PlacedWordRunsNext := by
  intro s nbits w i h
  refine stepRunsDecodedInstruction _ i (placeWord_canFetch s _) ?_
  rw [State.withFetchWord, placeWord_nextWord]
  exact decode_or_isAddIWord s.params.addI (decodeTableWord_eq_some h)

/-! ### Without a ROM -/

/-- The machine without a ROM after n cycles (70_reset_and_hazards.md R256). -/
def noRomState (n : Nat) : State :=
  { State.reset with
    pc := BitVec.ofNat 16 (0x200 + 2 * n)
    reports := (List.range n).map fun j => ⟨BitVec.ofNat 16 (0x200 + 2 * j), 0⟩ }

theorem noRomState_pc {n : Nat} (h : n ≤ 1792) : (noRomState n).pc.toNat = 0x200 + 2 * n := by
  simp only [noRomState, BitVec.toNat_ofNat]
  omega

/-- Past the font region an empty memory holds zeros. -/
theorem noRomState_byteAt {n a : Nat} (h : 80 ≤ a) : (noRomState n).byteAt a = 0 := by
  have : ¬ a < 80 := by omega
  simp [State.byteAt, noRomState, State.reset, State.afterReset, peek, unlisted, this]

theorem noRomState_nextWord {n : Nat} (h : n ≤ 1792) : (noRomState n).nextWord = 0 := by
  rw [State.nextWord, noRomState_pc h, noRomState_byteAt (by omega), noRomState_byteAt (by omega)]
  rfl

theorem noRomState_succ (n : Nat) : (noRomState n).reportUnknown 0 = noRomState (n + 1) := by
  have hpc : BitVec.ofNat 16 (0x200 + 2 * n) + 2 = BitVec.ofNat 16 (0x200 + 2 * (n + 1)) := by
    rw [Nat.mul_succ, ← Nat.add_assoc, BitVec.ofNat_add (0x200 + 2 * n) 2]
    rfl
  simp only [State.reportUnknown, noRomState, List.range_succ, List.map_append, hpc]
  rfl

theorem step_noRomState {n : Nat} (h : n < 1792) : step (noRomState n) = .next (noRomState (n + 1)) := by
  have hpc := noRomState_pc h.le
  have hc : (noRomState n).canFetch := ⟨rfl, by rw [hpc, Config.lastAddr]; omega⟩
  have hd : decode (noRomState n).params.addI (noRomState n).nextWord = .unknown 0 := by
    rw [noRomState_nextWord h.le]
    rfl
  rw [step_unknown hc hd, noRomState_succ]

/-- A run of n + 1 steps is a run of n steps and one more. -/
theorem run_succ_of_run {M : Host.Core} {n : Nat} {s t : M.State} (h : M.run n s = .next t) :
    M.run (n + 1) s = M.step t := by
  induction n generalizing s with
  | zero =>
    cases h
    rw [Host.Core.run]
    cases M.step t <;> rfl
  | succ n ih =>
    rw [Host.Core.run] at h ⊢
    cases hs : M.step s with
    | next u =>
      rw [hs] at h
      exact ih h
    | fault r =>
      rw [hs] at h
      cases h
    | refused r =>
      rw [hs] at h
      cases h

theorem run_noRom {n : Nat} (h : n ≤ 1792) : core.run n State.reset = .next (noRomState n) := by
  induction n with
  | zero => rfl
  | succ n ih => exact (run_succ_of_run (ih (by omega))).trans (step_noRomState (by omega))

/-- Settles O31: 1792 reports, by induction, and a last cycle whose fetch fails. -/
theorem noRomRunsToTheEnd : Obligations.NoRomRunsToTheEnd := by
  have hpc : (noRomState 1792).pc.toNat = 0x1000 := noRomState_pc le_rfl
  have hlast : step (noRomState 1792) = .next ((noRomState 1792).haltedBy (.outOfBoundsAddress 0x1000)) := by
    rw [step_unfetchable rfl (by rw [hpc]; decide), hpc]
    rfl
  refine ⟨fun n => run_noRom, _, (run_succ_of_run (run_noRom le_rfl)).trans hlast, rfl, ?_, rfl⟩
  simp [State.haltedBy, noRomState]

end Sys2Proof.Machine
end

section
/-! PROOF. Control transfer: the jumps, RET, and a CALL with its RET (40_control.md R103 to R110). -/

namespace Sys2Proof.Machine

/-- Settles O35. -/
theorem jumpSetsPc : Obligations.JumpSetsPc := by
  refine fun s nnn => ⟨_, rfl, addrOf_toNat nnn, setPc_onlyChanges s _, ?_⟩
  rintro rfl hr
  exact step_unfetchable (s := s.setPc (addrOf 0xFFF)) hr (Nat.lt_succ_self 0xFFE)

/-- Settles O36. -/
theorem jumpOffsetAddsV0 : Obligations.JumpOffsetAddsV0 := fun s nnn =>
  ⟨_, rfl, jumpOffset_toNat nnn (s.readV 0), setPc_onlyChanges s _, fun hpc hr => step_unfetchable hr hpc⟩

theorem exec_ret (s : State) : exec .ret s = transact s.popReturn (fun t => t) s := rfl

/-- The frame of a pop: the depth and pc. -/
theorem pop_onlyChanges (s : State) (d : Ix) (w : Word) :
    OnlyChanges (fun p => p = .sp ∨ p = .pc) s { s with sp := d, pc := w } := by
  intro p hp
  cases p with
  | sp => exact absurd (.inl rfl) hp
  | pc => exact absurd (.inr rfl) hp
  | _ => rfl

/-- Above depth 0 a pop counts down without a wrap (40_control.md R108). -/
theorem sp_pred_val {sp : Ix} (h : sp ≠ 0) : (sp - 1).val + 1 = sp.val := by
  have hpos : sp.val ≠ 0 := fun e => h (Fin.ext e)
  rw [Fin.val_sub_one_of_ne_zero h]
  omega

/-- Settles O38, by the two things a pop can do. -/
theorem returnPopsPc : Obligations.ReturnPopsPc := by
  intro s
  rw [exec_ret]
  rcases popReturn_cases s with ⟨hsp, hpop⟩ | ⟨hsp, hpop⟩
  · exact ⟨fun h => absurd hsp h, fun _ => transact_error hpop⟩
  · exact ⟨fun _ => ⟨_, transact_ok hpop, sp_pred_val hsp, rfl, pop_onlyChanges s _ _⟩,
      fun h => absurd h hsp⟩

/-- Settles O39, by what a CALL pushes and what a RET pops. -/
theorem callReturnRoundTrip : Obligations.CallReturnRoundTrip := by
  intro s t u nnn hsp hcall husp huslot
  obtain ⟨t', hcall', hslot, htsp, -, -⟩ := (callPushesReturnAddress s nnn).1 hsp
  obtain rfl : t = t' := Host.Outcome.next.inj (hcall.symm.trans hcall')
  have hu : u.sp ≠ 0 := fun h => by simp [← husp, h] at htsp
  obtain ⟨v, hret, hvsp, hvpc, -⟩ := (returnPopsPc u).1 hu
  have hback : v.sp = s.sp := Fin.ext (by rw [husp] at hvsp; omega)
  refine ⟨v, hret, ?_, hback⟩
  calc v.pc = u.stack[v.sp] := hvpc
    _ = u.stack[s.sp] := by simp only [hback]
    _ = t.stack[s.sp] := huslot
    _ = s.pc + 2 := hslot

end Sys2Proof.Machine
end

section
/-! PROOF. Memory: the access primitives, blocks read back, and the canonical form (20_memory.md R50 to R62; log
entry 25). -/

namespace Sys2Proof.Machine

/-! ### The access primitives -/

/-- Settles O16, by the branches of the two checks. -/
theorem accessPrimitives : Obligations.AccessPrimitives := by
  intro p m a v
  have notOutside (h : a ≤ 0xFFF) : ¬ a > Config.lastAddr := Nat.not_lt.2 h
  have fontInside (h : a ≤ 0x4F) : ¬ a > Config.lastAddr := notOutside (by omega)
  refine ⟨fun h => if_neg (notOutside h), fun h => ⟨if_pos h, if_pos h⟩, fun hf h => ?_, ?_, ?_, ?_⟩
  · rw [memWrite, if_neg (notOutside h), if_neg (show ¬ a ≤ Config.fontLast from Nat.not_le.2 hf)]
  all_goals
    intro h hw
    rw [memWrite, if_neg (fontInside h), if_pos (show a ≤ Config.fontLast from h), hw]

/-! ### Blocks -/

/-- A block read looks at the bytes it reads alone. -/
theorem loadBytes_congr {font : Vector Byte 80} {m m' : Memory} {a n : Nat}
    (h : ∀ k, k < n → peek font (a + k) m = peek font (a + k) m') :
    loadBytes font m a n = loadBytes font m' a n := by
  rcases loadBytes_cases font m a n with ⟨hin, he⟩ | ⟨hn, hout, he⟩ <;>
    rcases loadBytes_cases font m' a n with ⟨hin', he'⟩ | ⟨hn', hout', he'⟩
  · rw [he, he', List.map_congr_left fun k hk => h k (List.mem_range.1 hk)]
  · omega
  · omega
  · rw [he, he']

/-- A list is what its entries are, one by one. -/
theorem map_range_eq {f : Nat → Byte} {vs : List Byte} (h : ∀ k, k < vs.length → f k = vs.getD k 0) :
    (List.range vs.length).map f = vs :=
  List.ext_getElem (by simp) fun k hk hk' => by
    rw [List.getElem_map, List.getElem_range, h k hk', List.getD_eq_getElem _ _ hk']

/-- Settles O13: the store leaves the bytes stored where they were stored, and every other byte as it was. -/
theorem blockReadAfterWrite : Obligations.BlockReadAfterWrite := by
  intro p a vs m m' hm hf
  rcases storeBytes_cases p a vs m with ⟨m₁, hm₁, hs, hin⟩ | ⟨-, -, -, he⟩ | ⟨-, -, -, he⟩
  case inl =>
    obtain rfl : m' = m₁ := Except.ok.inj (hm.symm.trans hm₁)
    refine ⟨?_, fun b n hb => loadBytes_congr fun k hk => hs.outside _ (by omega)⟩
    rcases loadBytes_cases p.font m' a vs.length with ⟨-, he⟩ | ⟨hne, hout, -⟩
    · rw [he, map_range_eq]
      intro k hk
      have hstore : a + k ≤ 0x4F → p.fontWrite = .store := fun hle => hf.resolve_left (by omega)
      rw [hs.stored (a + k) (by omega) (by omega) hstore, Nat.add_sub_cancel_left]
    · rcases hin with rfl | ⟨hin, -⟩
      · exact absurd rfl hne
      · omega
  all_goals
    rw [hm] at he
    cases he

/-! ### The canonical form -/

/-- A canonical memory lists exactly the bytes that differ from what an unlisted address reads as. -/
theorem mem_iff_peek {font : Vector Byte 80} {m : Memory} (h : memoryWf font m = true) (a : Nat) (v : Byte) :
    (a, v) ∈ m ↔ peek font a m = v ∧ v ≠ unlisted font a := by
  obtain ⟨hsorted, hlisted⟩ := (memoryWf_iff font m).1 h
  clear h
  induction m with
  | nil =>
    constructor
    · intro h
      cases h
    · rintro ⟨rfl, hv⟩
      exact absurd rfl hv
  | cons c rest ih =>
    obtain ⟨d, w⟩ := c
    obtain ⟨hfirst, hrest⟩ := List.pairwise_cons.1 hsorted
    rw [List.mem_cons, peek_cons]
    by_cases hd : d = a
    · subst hd
      rw [if_pos rfl]
      constructor
      · rintro (hv | hv)
        · cases hv
          exact ⟨rfl, (hlisted (d, v) (by simp)).2⟩
        · exact absurd (hfirst _ hv) (Nat.lt_irrefl d)
      · rintro ⟨rfl, -⟩
        exact .inl rfl
    · have hne : (a, v) ≠ (d, w) := fun e => hd (congrArg Prod.fst e).symm
      rw [if_neg hd, ← ih hrest fun c hc => hlisted c (List.mem_cons_of_mem _ hc)]
      exact or_iff_right hne

/-- Settles O14: the two lists have the same members, and both rise. -/
theorem canonicalMemoriesAreEqual : Obligations.CanonicalMemoriesAreEqual := by
  intro font m m' h h' hpeek
  have members : ∀ c, c ∈ m ↔ c ∈ m' := fun ⟨a, v⟩ => by
    rw [mem_iff_peek h, mem_iff_peek h', hpeek]
  have : Std.Irrefl fun c d : Host.Cell => c.1 < d.1 := ⟨fun c => Nat.lt_irrefl c.1⟩
  have : Std.Antisymm fun c d : Host.Cell => c.1 < d.1 := ⟨fun c d h₁ h₂ => absurd h₁ (Nat.lt_asymm h₂)⟩
  exact ((memoryWf_iff font m).1 h).1.eq_of_mem_iff ((memoryWf_iff font m').1 h').1 members

theorem vector_ext_fin {α : Type} {n : Nat} {v w : Vector α n} (h : ∀ j : Fin n, w[j] = v[j]) : v = w :=
  Vector.ext fun j hj => (h ⟨j, hj⟩).symm

/-- Two framebuffers with the same pixels are the same. -/
theorem framebuffer_ext {f g : Framebuffer} (h : ∀ c r, pixelAt g c r = pixelAt f c r) : f = g :=
  vector_ext_fin fun r => BitVec.eq_of_getLsbD_eq fun c hc => h ⟨c, hc⟩ r

/-- Settles O15, field by field. -/
theorem partsDetermineState : Obligations.PartsDetermineState := by
  intro s t hs ht h
  have hparams : t.params = s.params := h .params
  have hmem : s.mem = t.mem := by
    rw [hparams] at ht
    refine canonicalMemoriesAreEqual s.params.font s.mem t.mem hs ht fun a => ?_
    have hbyte : t.byteAt a = s.byteAt a := h (.byte a)
    rw [State.byteAt, hparams] at hbyte
    exact hbyte.symm
  have hV : s.V = t.V := vector_ext_fin fun x => h (.reg x)
  have hstack : s.stack = t.stack := vector_ext_fin fun j => h (.slot j)
  have hkeys : s.keys = t.keys := vector_ext_fin fun k => h (.key k)
  have hfb : s.fb = t.fb := framebuffer_ext fun c r => h (.pixel c r)
  have hI : t.I = s.I := h .index
  have hpc : t.pc = s.pc := h .pc
  have hsp : t.sp = s.sp := h .sp
  have hDT : t.DT = s.DT := h .delay
  have hST : t.ST = s.ST := h .sound
  have hdirty : t.dirty = s.dirty := h .dirty
  have hrun : t.run = s.run := h .run
  have hreports : t.reports = s.reports := h .reports
  have hdraws : t.draws = s.draws := h .draws
  cases s
  cases t
  simp_all

end Sys2Proof.Machine
end

section
/-! PROOF. The transfers between registers and memory (42_index_memory.md R162 to R164; 20_memory.md R59, R67). -/

namespace Sys2Proof.Machine

theorem bcdDigits_length (a : Byte) : (bcdDigits a).length = 3 := rfl

/-- The digits of a byte, from the hundreds on (R162). -/
theorem bcdDigits_getD (a : Byte) {k : Nat} (hk : k < 3) :
    ((bcdDigits a).getD k 0).toNat = a.toNat / 10 ^ (2 - k) % 10 := by
  have ha := a.isLt
  interval_cases k
  · have : (a / 100).toNat = a.toNat / 100 := BitVec.toNat_udiv
    simp only [bcdDigits, List.getD_cons_zero, this]
    omega
  · simp [bcdDigits]
  · simp [bcdDigits]

/-! ### Stores that complete -/

/-- What a completed block store through I leaves: the bytes outside a font region that is kept, its frame, and a
font region that discards them as it was. -/
theorem storeAtI_result {s : State} {bytes : List Byte} (hin : s.dataAddr + bytes.length ≤ 4096)
    (hf : 0x4F < s.dataAddr ∨ s.params.fontWrite ≠ .refuse) :
    ∃ t, s.storeAtI bytes = .next t ∧
      (∀ k, k < bytes.length → (s.dataAddr + k ≤ 0x4F → s.params.fontWrite = .store) →
        t.byteAt (s.dataAddr + k) = bytes.getD k 0) ∧
      (∀ a : Nat, a ≤ 0x4F → s.params.fontWrite = .discard → t.byteAt a = s.byteAt a) ∧
      t.pc = s.pc + 2 ∧ OnlyChanges (fun p => p.isByteOf s.dataAddr bytes.length ∨ p = .pc) s t := by
  obtain ⟨m, hs, he⟩ := storeAtI_completes hin hf
  refine ⟨_, he, fun k hk hstore => ?_, hs.discarded, rfl, stored_onlyChanges hs⟩
  have := hs.stored (s.dataAddr + k) (by omega) (by omega) hstore
  rwa [Nat.add_sub_cancel_left] at this

/-- Settles O49: the bytes stored are the digits. -/
theorem bcdStoresDigits : Obligations.BcdStoresDigits := by
  intro s x hin hf
  obtain ⟨t, he, hstored, hrest⟩ := storeAtI_result (bytes := bcdDigits (s.readV x))
    (by rw [bcdDigits_length]; omega) hf
  exact ⟨t, he, fun k hk hstore => by rw [hstored k hk hstore, bcdDigits_getD _ hk], hrest⟩

/-- LD [I],Vx that completes: V0..Vx stand from I on (R163). -/
theorem ldMemVx_result {s : State} {x : Ix} (hin : s.dataAddr + x.val ≤ 0xFFF)
    (hf : 0x4F < s.dataAddr ∨ s.params.fontWrite ≠ .refuse) :
    ∃ t, exec (.ldMemVx x) s = .next t ∧
      (∀ k : Ix, k ≤ x → (s.dataAddr + k.val ≤ 0x4F → s.params.fontWrite = .store) →
        t.byteAt (s.dataAddr + k.val) = s.readV k) ∧
      (∀ a : Nat, a ≤ 0x4F → s.params.fontWrite = .discard → t.byteAt a = s.byteAt a) ∧
      t.pc = s.pc + 2 ∧ OnlyChanges (fun p => p.isByteOf s.dataAddr (x.val + 1) ∨ p = .pc) s t := by
  have hlen := regsUpTo_length s x
  obtain ⟨t, he, hstored, hrest⟩ := storeAtI_result (bytes := s.regsUpTo x) (by omega) hf
  rw [hlen] at hstored hrest
  refine ⟨t, he, fun k hk hstore => ?_, hrest⟩
  rw [hstored k.val (Nat.lt_succ_of_le hk) hstore, regsUpTo_getD s x k hk]

/-- Settles O50. -/
theorem blockStore : Obligations.BlockStore := fun _ _ => ldMemVx_result

/-- Settles O30: the two bytes a fetch reads there are two of the bytes stored. -/
theorem storedBytesAreFetched : Obligations.StoredBytesAreFetched := by
  intro s x k hkx hin hf
  obtain ⟨t, he, hstored, -⟩ := ldMemVx_result hin (hf.imp_right fun h => by simp [h])
  have hstore (a : Nat) : s.dataAddr + a ≤ 0x4F → s.params.fontWrite = .store := fun h =>
    hf.resolve_left (by omega)
  have hk1 : (k + 1).val = k.val + 1 := Fin.val_add_one_of_lt (Fin.lt_of_lt_of_le hkx (Fin.le_last x))
  have hpc : (s.I + BitVec.ofNat 16 k.val).toNat = s.dataAddr + k.val := by
    rw [State.dataAddr] at hin ⊢
    rw [BitVec.toNat_add, BitVec.toNat_ofNat]
    omega
  have hi := hstored k hkx.le (hstore k.val)
  have lo := hstored (k + 1) (Fin.le_def.2 (by omega)) (hstore (k + 1).val)
  refine ⟨t, he, ?_⟩
  rcases fetch_cases { t with pc := s.I + BitVec.ofNat 16 k.val } with ⟨-, hfetch⟩ | ⟨hout, -⟩
  · rw [hfetch, State.nextWord]
    simp only [hpc]
    rw [hk1] at lo
    exact congrArg Except.ok (congrArg₂ wordOfBytes hi lo)
  · simp only [hpc] at hout
    omega

/-! ### Loads that complete -/

/-- A block read inside memory gives the bytes there, one for each address. -/
theorem loadBytes_inside {s : State} {n : Nat} (hin : n = 0 ∨ s.dataAddr + n ≤ 4096) :
    loadBytes s.params.font s.mem s.dataAddr n =
      .ok ((List.range n).map fun k => s.byteAt (s.dataAddr + k)) := by
  rcases loadBytes_cases s.params.font s.mem s.dataAddr n with ⟨-, he⟩ | ⟨hne, hout, -⟩
  · exact he
  · omega

theorem loadBytes_outside {s : State} {n : Nat} (hn : n ≠ 0) (hout : 4096 < s.dataAddr + n) :
    loadBytes s.params.font s.mem s.dataAddr n =
      .error (.fatal (.outOfBoundsAddress (firstOutside s.dataAddr))) := by
  rcases loadBytes_cases s.params.font s.mem s.dataAddr n with ⟨hin, -⟩ | ⟨-, -, he⟩
  · omega
  · exact he

/-- Settles O51: the bytes loaded are those a read inside memory gives. -/
theorem blockLoad : Obligations.BlockLoad := by
  intro s x hin
  refine ⟨_, transact_ok (loadBytes_inside (.inr (by omega))), fun k hk => ?_, ?_,
    (loadRegs_onlyChanges s x _ (by simp)).advance⟩
  case refine_2 => rw [State.advance_eq, State.setPc_pc, State.loadRegs_pc]
  have hk : k.val < x.val + 1 := Nat.lt_succ_of_le hk
  simp [List.getD, hk]

/-! ### Accesses that stop the engine -/

/-- A store of at most sixteen bytes that reaches past the end of memory begins above the font region, so that no
refusal comes first. -/
theorem storeAtI_outside {s : State} {bytes : List Byte} (hne : bytes ≠ []) (hlen : bytes.length ≤ 16)
    (hout : 4096 < s.dataAddr + bytes.length) :
    s.storeAtI bytes = .next (s.haltedBy (.outOfBoundsAddress (firstOutside s.dataAddr))) := by
  rcases storeBytes_cases s.params s.dataAddr bytes s.mem with
    ⟨m, -, -, rfl | ⟨hin, -⟩⟩ | ⟨-, -, -, he⟩ | ⟨-, ha, -, -⟩
  · exact absurd rfl hne
  · omega
  · exact transact_error he
  · omega

theorem storeAtI_refused {s : State} {bytes : List Byte} (hne : bytes ≠ []) (hlen : bytes.length ≤ 16)
    (hf : s.params.fontWrite = .refuse) (ha : s.dataAddr ≤ 0x4F) :
    s.storeAtI bytes = .next (s.refusedBy (.fontRegionWrite s.dataAddr)) := by
  rcases storeBytes_cases s.params s.dataAddr bytes s.mem with
    ⟨m, -, -, rfl | ⟨-, hok⟩⟩ | ⟨-, hout, -, -⟩ | ⟨-, -, -, he⟩
  · exact absurd rfl hne
  · rcases hok with hok | hok
    · omega
    · exact absurd hf hok
  · omega
  · exact transact_error he

theorem bcdDigits_ne_nil (a : Byte) : bcdDigits a ≠ [] := List.cons_ne_nil _ _

theorem bcdDigits_length_le (a : Byte) : (bcdDigits a).length ≤ 16 := by
  rw [bcdDigits_length]
  omega

theorem regsUpTo_ne_nil (s : State) (x : Ix) : s.regsUpTo x ≠ [] :=
  List.ne_nil_of_length_eq_add_one (regsUpTo_length s x)

theorem regsUpTo_length_le (s : State) (x : Ix) : (s.regsUpTo x).length ≤ 16 := by
  rw [regsUpTo_length]
  exact x.isLt

/-- Settles O52: a block that reaches outside memory is stopped at its first address outside. -/
theorem accessOutsideMemoryHalts : Obligations.AccessOutsideMemoryHalts := by
  intro s x y n
  refine ⟨fun h => ?_, fun h => ?_, fun h => ?_, fun hn h => ?_⟩
  · exact storeAtI_outside (bcdDigits_ne_nil _) (bcdDigits_length_le _) (by rw [bcdDigits_length]; omega)
  · exact storeAtI_outside (regsUpTo_ne_nil s x) (regsUpTo_length_le s x) (by rw [regsUpTo_length]; omega)
  · exact transact_error (loadBytes_outside (by omega) (by omega))
  · exact transact_error (loadBytes_outside (fun e => hn (Fin.ext e)) h)

/-- Settles O53. -/
theorem fontWriteRefused : Obligations.FontWriteRefused := fun s x hf ha =>
  ⟨storeAtI_refused (bcdDigits_ne_nil _) (bcdDigits_length_le _) hf ha,
    storeAtI_refused (regsUpTo_ne_nil s x) (regsUpTo_length_le s x) hf ha⟩

end Sys2Proof.Machine
end

section
/-! PROOF. The display: CLS, DRW, and a sprite drawn twice (43_display.md R180 to R186). -/

namespace Sys2Proof.Machine

/-! ### CLS -/

/-- The frame of CLS. -/
theorem cls_onlyChanges (s : State) (f : Framebuffer) (d : Bool) :
    OnlyChanges (fun p => p.isPixel ∨ p = .dirty ∨ p = .pc ∨ p = .draws) s
      (((s.countDraw.setFb f).setDirty d).advance) :=
  (((countDraw_onlyChanges s).mono fun _ h => .inr (.inr (.inr h))).trans
    ((setFb_onlyChanges _ f).mono fun _ => .inl)).trans
    ((setDirty_onlyChanges _ d).advance.mono fun _ h => .inr (h.imp_right .inl))

/-- Settles O54. -/
theorem clearScreen : Obligations.ClearScreen := by
  refine fun s => ⟨_, rfl, pixelAt_clearedScreen, ?_, rfl, cls_onlyChanges s _ _⟩
  show (s.dirty || Config.freeDirty s.draws) = s.dirty ∨ (s.dirty || Config.freeDirty s.draws) = true
  cases Config.freeDirty s.draws with
  | false => exact .inl (Bool.or_false _)
  | true => exact .inr (Bool.or_true _)

/-! ### DRW -/

/-- The frame of a completed draw. -/
theorem finishDraw_onlyChanges (s : State) (d : Drawing) :
    OnlyChanges (fun p => p.isPixel ∨ p = .reg 15 ∨ p = .dirty ∨ p = .pc) s (s.finishDraw d) :=
  (((setFb_onlyChanges s _).mono fun _ => .inl).trans
    ((writeV_onlyChanges _ 15 _).mono fun _ h => .inr (.inl h))).trans
    ((setDirty_onlyChanges _ true).advance.mono fun _ h => .inr (.inr h))

/-- The row bytes DRW reads (R181). -/
def State.spriteRows (s : State) (n : Ix) : List Byte :=
  (List.range n.val).map fun k => s.byteAt (s.dataAddr + k)

/-- The draw DRW Vx,Vy,n makes in a state (R181). -/
def State.drawing (s : State) (x y n : Ix) : Drawing :=
  drawSprite (s.readV x) (s.readV y) (s.spriteRows n) s.fb

theorem exec_drw {s : State} {n : Ix} (x y : Ix) (h : n = 0 ∨ s.dataAddr + n.val ≤ 0x1000) :
    exec (.drw x y n) s = .next (s.finishDraw (s.drawing x y n)) :=
  transact_ok (loadBytes_inside (h.imp_left (congrArg Fin.val)))

/-- The pixels a draw toggles are those the sprite covers (R181 to R184). -/
theorem drawing_draws (s : State) (x y n : Ix) :
    Draws (SpriteCovers s x y n) { fb := s.fb, collision := false } (s.drawing x y n) := by
  have hlen : (s.spriteRows n).length = n.val := by simp [State.spriteRows]
  refine (drawSprite_draws _ _ _ (by omega) s.fb).congr fun c r => ?_
  simp only [SpriteCovers, hlen, Fin.ext_iff, screenCol_val, screenRow_val]
  refine exists_congr fun row => exists_congr fun col => and_congr_right fun hrow => ?_
  simp [State.spriteRows, List.getD, hrow]

theorem drawing_collision_iff (s : State) (x y n : Ix) :
    (s.drawing x y n).collision = true ↔ SpriteOverlaps s x y n :=
  (drawing_draws s x y n).hit.trans (or_iff_right Bool.false_ne_true)

theorem finishDraw_readV_15 (s : State) (d : Drawing) : (s.finishDraw d).readV 15 = flagByte d.collision := by
  simp

theorem finishDraw_pixel (s : State) (d : Drawing) (c : Fin 64) (r : Fin 32) :
    (s.finishDraw d).pixel c r = pixelAt d.fb c r := rfl

/-- Settles O55: what a draw toggles and records is what the sprite covers and overlaps. -/
theorem drawXorsSprite : Obligations.DrawXorsSprite := by
  intro s x y n hin
  have hd := drawing_draws s x y n
  refine ⟨_, exec_drw x y hin, fun c r => ⟨hd.toggled c r, hd.kept c r⟩, fun h => ?_, fun h => ?_, rfl, rfl,
    finishDraw_onlyChanges s _⟩
  · rw [finishDraw_readV_15, (drawing_collision_iff s x y n).2 h]
    rfl
  · rw [finishDraw_readV_15, Bool.eq_false_iff.2 (mt (drawing_collision_iff s x y n).1 h)]
    rfl

/-! ### A sprite drawn twice -/

/-- What a sprite covers depends on its coordinates and on its bytes alone. -/
theorem spriteCovers_congr {s t : State} {x y : Ix} (n : Ix) (hx : t.readV x = s.readV x)
    (hy : t.readV y = s.readV y) (hI : t.dataAddr = s.dataAddr) (hbytes : ∀ a, t.byteAt a = s.byteAt a)
    (c : Fin 64) (r : Fin 32) : SpriteCovers t x y n c r ↔ SpriteCovers s x y n c r := by
  simp only [SpriteCovers, hx, hy, hI, hbytes]

theorem flagByte_eq_one_iff (b : Bool) : flagByte b = 1 ↔ b = true := by
  cases b <;> decide

/-- Settles O56: the second draw covers the pixels of the first, and toggles each of them back. -/
theorem drawTwiceRestores : Obligations.DrawTwiceRestores := by
  intro s t x y n v hin ht hx hy
  obtain rfl : s.finishDraw (s.drawing x y n) = t :=
    Host.Outcome.next.inj ((exec_drw x y hin).symm.trans ht)
  set t := (s.finishDraw (s.drawing x y n)).writeFlag v
  have hcover : ∀ c r, SpriteCovers t x y n c r ↔ SpriteCovers s x y n c r :=
    spriteCovers_congr n hx hy rfl fun _ => rfl
  have h₁ := drawing_draws s x y n
  have h₂ := (drawing_draws t x y n).congr fun c r => (hcover c r).symm
  have hpix : ∀ c r, pixelAt t.fb c r = pixelAt (s.drawing x y n).fb c r := fun _ _ => rfl
  refine ⟨_, exec_drw x y hin, fun c r => ?_, ?_⟩
  · rw [finishDraw_pixel]
    by_cases hc : SpriteCovers s x y n c r
    · rw [h₂.toggled c r hc, hpix, h₁.toggled c r hc, Bool.not_not]
      rfl
    · rw [h₂.kept c r hc, hpix, h₁.kept c r hc]
      rfl
  · rw [finishDraw_readV_15, flagByte_eq_one_iff, drawing_collision_iff]
    refine exists_congr fun c => exists_congr fun r => ?_
    rw [hcover c r]
    refine and_congr_right fun hc => ?_
    have : t.pixel c r = !s.pixel c r := (hpix c r).trans (h₁.toggled c r hc)
    rw [this, Bool.not_eq_true']

end Sys2Proof.Machine
end

section
/-! PROOF. What holds of every instruction: its frame, the return addresses a step keeps, and the state no
instruction reads (10_state.md R22, R29, R30, R35; 40_control.md R105, R107). -/

namespace Sys2Proof.Machine

/-! ### The frame of every instruction -/

/-- A transaction keeps what its raise and its writes keep. -/
theorem transact_onlyChanges {α : Type} {may : Part → Prop} {r : Except Raise α} {k : α → State} {s t : State}
    (h : transact r k s = .next t) (hrun : may .run) (hk : ∀ a, r = .ok a → OnlyChanges may s (k a)) :
    OnlyChanges may s t := by
  rcases transact_cases h with ⟨e, -, rfl⟩ | ⟨a, ha, rfl⟩
  · exact (raise_onlyChanges s e).mono fun _ hp => hp ▸ hrun
  · exact hk a ha

theorem storeAtI_onlyChanges {s t : State} {bytes : List Byte} (h : s.storeAtI bytes = .next t) :
    OnlyChanges (fun p => p.isByteOf s.dataAddr bytes.length ∨ p = .pc ∨ p = .run) s t := by
  rcases storeAtI_cases h with ⟨e, rfl⟩ | ⟨m, -, hs, rfl⟩
  · exact (raise_onlyChanges s e).mono fun _ hp => .inr (.inr hp)
  · exact (stored_onlyChanges hs).mono fun _ hp => hp.imp_right .inl

theorem ret_onlyChanges {s t : State} (h : exec .ret s = .next t) :
    OnlyChanges (fun p => p = .sp ∨ p = .pc ∨ p = .run) s t := by
  refine transact_onlyChanges h (.inr (.inr rfl)) fun u hu => ?_
  rcases popReturn_cases s with ⟨-, hpop⟩ | ⟨-, hpop⟩
  · rw [hpop] at hu
    cases hu
  · obtain rfl := Except.ok.inj (hpop.symm.trans hu)
    exact (pop_onlyChanges s _ _).mono fun _ hp => hp.imp_right .inl

theorem call_onlyChanges {s t : State} {nnn : Addr12} (h : exec (.call nnn) s = .next t) :
    OnlyChanges (fun p => p = .slot s.sp ∨ p = .sp ∨ p = .pc ∨ p = .run) s t := by
  refine transact_onlyChanges h (.inr (.inr (.inr rfl))) fun u hu => ?_
  rcases pushReturn_cases s with ⟨-, hpush⟩ | ⟨-, hpush⟩
  · rw [hpush] at hu
    cases hu
  · obtain rfl := Except.ok.inj (hpush.symm.trans hu)
    exact ((push_onlyChanges s _).mono fun _ hp => hp.imp_right .inl).trans
      ((setPc_onlyChanges _ _).mono fun _ hp => .inr (.inr (.inl hp)))

theorem ldVxMem_onlyChanges {s t : State} {x : Ix} (h : exec (.ldVxMem x) s = .next t) :
    OnlyChanges (fun p => (∃ k : Ix, k ≤ x ∧ p = .reg k) ∨ p = .pc ∨ p = .run) s t := by
  refine transact_onlyChanges h (.inr (.inr rfl)) fun bytes hb => ?_
  have hlen : bytes.length = x.val + 1 := by
    rcases loadBytes_cases s.params.font s.mem s.dataAddr (x.val + 1) with ⟨-, he⟩ | ⟨-, -, he⟩
    · obtain rfl := Except.ok.inj (he.symm.trans hb)
      simp
    · rw [he] at hb
      cases hb
  exact (loadRegs_onlyChanges s x bytes hlen).advance.mono fun _ hp => hp.imp_right .inl

theorem ldVxK_onlyChanges {s t : State} {x : Ix} (h : exec (.ldVxK x) s = .next t) :
    OnlyChanges (fun p => p = .reg x ∨ p = .pc ∨ p = .draws) s t := by
  rcases ldVxK_cases x s with ⟨-, he⟩ | ⟨k, -, he⟩
  · obtain rfl := Host.Outcome.next.inj (he.symm.trans h)
    exact OnlyChanges.refl _ _
  · obtain rfl := Host.Outcome.next.inj (he.symm.trans h)
    exact countDraw_finish_onlyChanges s x _

/-- Settles O32, instruction by instruction. -/
theorem everyInstructionFrame : Obligations.EveryInstructionFrame := by
  intro i s t h
  cases i
  case ret => exact ret_onlyChanges h
  case call => exact call_onlyChanges h
  case ldVxMem => exact ldVxMem_onlyChanges h
  case ldVxK => exact ldVxK_onlyChanges h
  case ldBVx => exact storeAtI_onlyChanges h
  case ldMemVx x =>
    have := storeAtI_onlyChanges h
    rwa [regsUpTo_length] at this
  case drw =>
    exact transact_onlyChanges h (.inr (.inr (.inr (.inr rfl)))) fun _ _ =>
      (finishDraw_onlyChanges s _).mono fun _ hp => hp.imp_right (.imp_right (.imp_right .inl))
  case skp | sknp =>
    exact transact_onlyChanges h (.inr rfl) fun _ _ => (setPc_onlyChanges s _).mono fun _ => .inl
  all_goals obtain rfl := Host.Outcome.next.inj h
  case cls => exact cls_onlyChanges s _ _
  case rnd => exact countDraw_finish_onlyChanges s _ _
  case jp | jpV0 | seImm | sneImm | seReg | sneReg => exact setPc_onlyChanges s _
  case ldI | ldFVx | addIVx => exact (setI_onlyChanges s _).advance
  case ldDtVx => exact (setDT_onlyChanges s _).advance
  case ldStVx => exact (setST_onlyChanges s _).advance
  case ldImm | addImm | ldReg | or | and | xor | ldVxDt => exact finish_onlyChanges s _ _
  all_goals exact (finishFlag_onlyChanges s _ _ _).mono fun _ hp => or_left_comm.1 hp

/-! ### What every step keeps -/

/-- A part that no instruction may change, and that is neither pc, the reports nor run, is kept by every step. -/
theorem step_keeps {p : Part} {s t : State} (h : step s = .next t)
    (hexec : ∀ i, ¬ instrMayChange s i p) (hpc : p ≠ .pc) (hreports : p ≠ .reports) (hrun : p ≠ .run) :
    p.Same s t := by
  rcases step_cases h with ⟨-, rfl⟩ | ⟨-, -, rfl⟩ | ⟨-, w, -, rfl⟩ | ⟨-, i, -, he⟩
  · exact Part.Same.refl p _
  · exact raise_onlyChanges s _ p hrun
  · exact reportUnknown_onlyChanges s w p fun hp => hp.elim hpc hreports
  · exact everyInstructionFrame i s t he p (hexec i)

/-- No instruction may change the parameters. -/
theorem not_instrMayChange_params (s : State) (i : Instr) : ¬ instrMayChange s i .params := by
  cases i <;> simp [instrMayChange, Part.isPixel, Part.isByteOf]

/-- Only a CALL may change a stack slot, and then the one at sp. -/
theorem not_instrMayChange_slot {s : State} {j : Ix} (hj : j ≠ s.sp) (i : Instr) :
    ¬ instrMayChange s i (.slot j) := by
  cases i <;> simp [instrMayChange, Part.isPixel, Part.isByteOf, hj]

theorem step_params {s t : State} (h : step s = .next t) : t.params = s.params :=
  step_keeps h (not_instrMayChange_params s) nofun nofun nofun

/-- Settles O33: the one slot a step may change is the one at sp. -/
theorem heldReturnAddressesStay : Obligations.HeldReturnAddressesStay := fun _ _ _ h hj =>
  step_keeps h (not_instrMayChange_slot (ne_of_lt hj)) nofun nofun nofun

/-! ### What no instruction reads -/

/-- A state with other contents of ST, the reports and the keys. -/
def State.withUnread (s : State) (v : Byte) (rs : List Report) (ks : Vector Bool 16) : State :=
  { s with ST := v, reports := rs, keys := ks }

/-- A transaction whose check and writes do not see ST, the reports and the keys does not see them. -/
theorem transact_withUnread {α β : Type} {r : Except Raise α} {r' : Except Raise β} (f : α → β)
    {k : α → State} {k' : β → State} {s t : State} {v : Byte} {rs : List Report} {ks : Vector Bool 16}
    (h : transact r k s = .next t) (hr : r' = r.map f) (hk : ∀ a, k' (f a) = (k a).withUnread v rs ks) :
    transact r' k' (s.withUnread v rs ks) = .next (t.withUnread v rs ks) := by
  rcases transact_cases h with ⟨e, rfl, rfl⟩ | ⟨a, rfl, rfl⟩
  · exact transact_error hr
  · rw [transact_ok hr, hk]

theorem popReturn_withUnread (s : State) (v : Byte) (rs : List Report) (ks : Vector Bool 16) :
    (s.withUnread v rs ks).popReturn = s.popReturn.map (·.withUnread v rs ks) := by
  rcases popReturn_cases s with ⟨hsp, hpop⟩ | ⟨hsp, hpop⟩
  · rw [hpop]
    exact if_pos hsp
  · rw [hpop]
    exact if_neg hsp

theorem pushReturn_withUnread (s : State) (v : Byte) (rs : List Report) (ks : Vector Bool 16) :
    (s.withUnread v rs ks).pushReturn = s.pushReturn.map (·.withUnread v rs ks) := by
  rcases pushReturn_cases s with ⟨hsp, hpush⟩ | ⟨hsp, hpush⟩
  · rw [hpush]
    exact if_pos hsp
  · rw [hpush]
    exact if_neg hsp

/-- With the same keys an instruction that reads them does the same. -/
theorem ldVxK_withUnread {x : Ix} {s t : State} (v : Byte) (rs : List Report)
    (h : exec (.ldVxK x) s = .next t) :
    exec (.ldVxK x) (s.withUnread v rs s.keys) = .next (t.withUnread v rs s.keys) := by
  cases hc : chooseKey (pressedKeys s.keys) (Config.freeKey s.draws) with
  | none =>
    obtain rfl := Host.Outcome.next.inj ((exec_ldVxK_none hc).symm.trans h)
    exact exec_ldVxK_none hc
  | some k =>
    obtain rfl := Host.Outcome.next.inj ((exec_ldVxK_some hc).symm.trans h)
    exact exec_ldVxK_some (s := s.withUnread v rs s.keys) hc

/-- Every instruction but LD ST,Vx commutes with a change of ST, the reports and, where it reads no key, the keys. -/
theorem exec_withUnread {i : Instr} {s t : State} {v : Byte} {rs : List Report} {ks : Vector Bool 16}
    (h : exec i s = .next t) (hkeys : readsKeys i = true → ks = s.keys) (hi : ∀ x, i ≠ .ldStVx x) :
    exec i (s.withUnread v rs ks) = .next (t.withUnread v rs ks) := by
  cases i
  case ldStVx x => exact absurd rfl (hi x)
  case ret => exact transact_withUnread _ h (popReturn_withUnread s v rs ks) fun _ => rfl
  case call => exact transact_withUnread _ h (pushReturn_withUnread s v rs ks) fun _ => rfl
  case drw | ldBVx | ldMemVx | ldVxMem => exact transact_withUnread id h (congrFun Except.map_id _).symm fun _ => rfl
  case skp | sknp =>
    obtain rfl := hkeys rfl
    exact transact_withUnread id h (congrFun Except.map_id _).symm fun _ => rfl
  case ldVxK =>
    obtain rfl := hkeys rfl
    exact ldVxK_withUnread v rs h
  all_goals
    obtain rfl := Host.Outcome.next.inj h
    rfl

/-- Settles O34: what was changed stays changed, and LD ST,Vx alone writes one of the three. -/
theorem unreadStateDoesNotFlow : Obligations.UnreadStateDoesNotFlow := by
  intro i s t v rs ks h hkeys
  by_cases hi : ∀ x, i ≠ .ldStVx x
  · exact ⟨_, exec_withUnread h hkeys hi, rfl, rfl, rfl, fun _ => rfl⟩
  · obtain ⟨x, hx⟩ := not_forall.1 hi
    obtain rfl := not_not.1 hx
    obtain rfl := Host.Outcome.next.inj h
    exact ⟨_, rfl, rfl, rfl, rfl, fun hne => absurd rfl (hne x)⟩

end Sys2Proof.Machine
end

section
/-! PROOF. Reset, the host's actions, sessions, and the invariant of the machine (10_state.md R25, R27, R37;
60_exceptions.md R224 to R234; 70_reset_and_hazards.md R250 to R253). -/

namespace Sys2Proof.Machine

/-! ### Reset -/

/-- Settles O2: the table, and the bytes an empty memory reads as. -/
theorem hostResetFromAnyState : Obligations.HostResetFromAnyState := by
  intro s
  refine ⟨fun x => ?_, rfl, rfl, rfl, fun j => ?_, rfl, rfl, fun k => ?_, fun c r => ?_, rfl, rfl, fun a ha => ?_,
    fun a ha => ?_, rfl, rfl, rfl⟩
  · exact Vector.getElem_replicate x.isLt
  · exact Vector.getElem_replicate j.isLt
  · exact Vector.getElem_replicate k.isLt
  · exact pixelAt_clearedScreen c r
  · exact dif_pos ha
  · exact dif_neg (Nat.not_lt.2 ha)

/-- Settles O1: the reset machine is what Reset makes of itself. -/
theorem resetLeavesTheTable : Obligations.ResetLeavesTheTable := by
  obtain ⟨hV, hI, hpc, hsp, hstack, hDT, hST, hkeys, hfb, hdirty, hrun, hfont, hzero, -⟩ :=
    hostResetFromAnyState State.reset
  exact ⟨hV, hI, hpc, hsp, hstack, hDT, hST, hkeys, hfb, hdirty, hrun, hfont, fun a ha _ => hzero a ha⟩

/-- Settles O3. -/
theorem invariantAtReset : Obligations.InvariantAtReset := afterReset_inv _ _ _

/-! ### Tick -/

theorem countDown_toNat (t : Byte) : (countDown t).toNat = t.toNat - 1 := by
  unfold countDown
  split
  · next h => simp [h]
  · next h =>
    have hpos : t.toNat ≠ 0 := fun e => h (BitVec.eq_of_toNat_eq e)
    have hlt := t.isLt
    rw [BitVec.toNat_sub, show (1 : Byte).toNat = 1 from rfl]
    omega

/-- A tick is a write to each of the timers (R224). -/
theorem tick_eq (s : State) : s.tick = (s.setDT (countDown s.DT)).setST (countDown s.ST) := rfl

theorem tick_onlyChanges (s : State) : OnlyChanges (fun p => p = .delay ∨ p = .sound) s s.tick := by
  rw [tick_eq]
  exact ((setDT_onlyChanges s _).mono fun _ => .inl).trans ((setST_onlyChanges _ _).mono fun _ => .inr)

/-- Settles O8: one tick, and n ticks by induction. -/
theorem tickCountsDown : Obligations.TickCountsDown := by
  refine ⟨fun s => ⟨countDown_toNat _, countDown_toNat _, tick_onlyChanges s⟩, fun n s => ?_⟩
  induction n generalizing s with
  | zero => exact ⟨rfl, rfl⟩
  | succ n ih =>
    obtain ⟨hDT, hST⟩ := ih s.tick
    rw [Function.iterate_succ_apply, hDT, hST, State.tick_DT, State.tick_ST, countDown_toNat, countDown_toNat]
    omega

/-! ### LoadRom -/

theorem loadRom_fits {s : State} {rom : List Byte} (h : rom.length ≤ 3584) :
    s.loadRom rom = s.setMem (pokeAll s.params.font 0x200 rom s.mem) :=
  if_neg (Nat.not_lt.2 h)

theorem loadRom_tooLong {s : State} {rom : List Byte} (h : 3584 < rom.length) :
    s.loadRom rom = s.haltedBy (.romTooLarge rom.length) :=
  if_pos h

/-- The frame of a loaded ROM: the bytes it is put at. -/
theorem pokeAll_onlyChanges (s : State) (a : Nat) (bytes : List Byte) :
    OnlyChanges (fun p => p.isByteOf a bytes.length) s (s.setMem (pokeAll s.params.font a bytes s.mem)) := by
  intro p hp
  cases p with
  | byte b => exact (peek_pokeAll s.params.font a b bytes s.mem).trans (if_neg hp)
  | _ => rfl

/-- Settles O11: a ROM that fits is one block write, and a read meets it or does not. -/
theorem loadRomPlacesBytes : Obligations.LoadRomPlacesBytes := by
  refine fun s rom => ⟨fun h => ?_, loadRom_tooLong⟩
  rw [loadRom_fits h]
  refine ⟨fun j hj => ?_, pokeAll_onlyChanges s 0x200 rom⟩
  rw [State.byteAt_setMem, peek_pokeAll, if_pos (by omega), Nat.add_sub_cancel_left, List.getD_eq_getElem _ _ hj]

/-! ### Sessions -/

/-- A RunCycle request is a step, and ends the time for LoadRom when the engine runs (60_exceptions.md R231; log
entry 22). -/
theorem move_runCycle {c c' : Session} (h : c.move .runCycle = some c') :
    step c.core = .next c'.core ∧ c'.romAllowed = (c.romAllowed && decide (c.core.run ≠ .running)) := by
  obtain ⟨t, ht⟩ := everyStepHasANextState c.core
  simp only [Session.move, ht] at h
  cases h
  exact ⟨ht, rfl⟩

/-- LoadRom is a move while it is allowed, and leaves it allowed (70_reset_and_hazards.md R252). -/
theorem move_loadRom {c c' : Session} {rom : List Byte} (h : c.move (.loadRom rom) = some c') :
    c'.core = c.core.loadRom rom ∧ c'.romAllowed = c.romAllowed := by
  rw [Session.move] at h
  split at h
  · cases h
    exact ⟨rfl, rfl⟩
  · cases h

/-- What every move keeps of the state, every session keeps. -/
theorem moves_keep {P : State → Prop}
    (hmove : ∀ {c c' : Session} (m : Move), c.move m = some c' → P c.core → P c'.core)
    {c c' : Session} {ms : List Move} (h : c.moves ms = some c') (hP : P c.core) : P c'.core := by
  induction ms generalizing c with
  | nil =>
    cases h
    exact hP
  | cons m ms ih =>
    rw [Session.moves] at h
    split at h
    · cases h
    · next c₁ h₁ => exact ih h (hmove m h₁ hP)

theorem loadRom_params (s : State) (rom : List Byte) : (s.loadRom rom).params = s.params := by
  unfold State.loadRom
  split <;> rfl

theorem move_params {c c' : Session} (m : Move) (h : c.move m = some c') :
    c'.core.params = c.core.params := by
  cases m with
  | runCycle => exact step_params (move_runCycle h).1
  | loadRom rom => rw [(move_loadRom h).1, loadRom_params]
  | tick | setKey | consumeFrame | reset =>
    cases h
    rfl

/-- Settles O6, by induction on the moves. -/
theorem sessionsKeepParameters : Obligations.SessionsKeepParameters := fun c _ _ h =>
  moves_keep (P := fun s => s.params = c.core.params) (fun m h₁ hP => (move_params m h₁).trans hP) h rfl

/-- A LoadRom never starts a stopped engine. -/
theorem loadRom_run_ne {s : State} (rom : List Byte) (h : s.run ≠ .running) : (s.loadRom rom).run ≠ .running := by
  unfold State.loadRom
  split
  · exact nofun
  · exact h

/-- Settles O7, move by move. -/
theorem onlyResetLeavesHalted : Obligations.OnlyResetLeavesHalted := by
  intro c c' m hstop h
  cases m with
  | runCycle =>
    have hstay : c'.core = c.core :=
      Host.Outcome.next.inj ((move_runCycle h).1.symm.trans (step_stopped hstop))
    exact iff_of_false (hstay ▸ hstop) nofun
  | loadRom rom => exact iff_of_false ((move_loadRom h).1 ▸ loadRom_run_ne rom hstop) nofun
  | reset =>
    cases h
    exact iff_of_true rfl rfl
  | tick | setKey | consumeFrame =>
    cases h
    exact iff_of_false hstop nofun

theorem move_loadRom_eq_none_iff (c : Session) (rom : List Byte) :
    c.move (.loadRom rom) = none ↔ c.romAllowed = false := by
  rw [Session.move]
  split
  · next h => simp [h]
  · next h => simp [h]

/-- Settles O12, by what each move does to the permission. -/
theorem loadRomOnlyBeforeFirstCycle : Obligations.LoadRomOnlyBeforeFirstCycle := by
  refine ⟨move_loadRom_eq_none_iff, fun c c' h => ?_, fun c c' h hrun => ?_, fun c c' h hstop => ?_,
    fun c c' m h hcycle hreset => ?_⟩
  · cases h
    rfl
  · rw [(move_runCycle h).2, hrun]
    exact Bool.and_false _
  · rw [(move_runCycle h).2, decide_eq_true hstop, Bool.and_true]
  · cases m with
    | runCycle => exact absurd rfl hcycle
    | reset => exact absurd rfl hreset
    | loadRom rom => exact (move_loadRom h).2
    | tick | setKey | consumeFrame =>
      cases h
      rfl

end Sys2Proof.Machine
end

section
/-! PROOF. The invariant of the machine: every instruction, every step and every session keeps it (10_state.md R25,
R27; 20_memory.md R59; 42_index_memory.md R165). -/

namespace Sys2Proof.Machine

/-- A raise keeps the invariant: it writes run alone. -/
theorem raise_inv {s : State} (h : MachineInv s) (e : Raise) : MachineInv (s.raise e) :=
  h.congr rfl rfl rfl rfl h.pcRange

/-- A transaction keeps the invariant when its writes do. -/
theorem transact_inv {α : Type} {r : Except Raise α} {k : α → State} {s t : State} (hs : MachineInv s)
    (h : transact r k s = .next t) (hk : ∀ a, r = .ok a → MachineInv (k a)) : MachineInv t := by
  rcases transact_cases h with ⟨e, -, rfl⟩ | ⟨a, ha, rfl⟩
  · exact raise_inv hs e
  · exact hk a ha

theorem setPc_inv {s : State} {w : Word} (h : MachineInv s) (hw : w.toNat ≤ 0x10FE) : MachineInv (s.setPc w) :=
  h.congr rfl rfl rfl rfl hw

theorem setI_inv {s : State} {v : Word} (h : MachineInv s) (hv : s.params.addI = false → v.toNat ≤ 0xFFF) :
    MachineInv (s.setI v) where
  memory := h.memory
  pcRange := h.pcRange
  slotRange := h.slotRange
  topSlot := h.topSlot
  fontRegion := h.fontRegion
  indexRange := hv

/-- The bytes of pc and of what follows it are at most 0xFFF, so that pc + 2 and pc + 4 do not wrap (R25). -/
theorem pc_add_two_toNat {s : State} (hc : s.canFetch) : (s.pc + 2).toNat = s.pc.toNat + 2 := by
  have := hc.2
  rw [Config.lastAddr] at this
  rw [BitVec.toNat_add, show (2 : Word).toNat = 2 from rfl]
  omega

theorem pc_add_four_toNat {s : State} (hc : s.canFetch) : (s.pc + 4).toNat = s.pc.toNat + 4 := by
  have := hc.2
  rw [Config.lastAddr] at this
  rw [BitVec.toNat_add, show (4 : Word).toNat = 4 from rfl]
  omega

/-- A return address, pc + 2, is at most 0x1000 (R25). -/
theorem pc_add_two_le {s : State} (hc : s.canFetch) : (s.pc + 2).toNat ≤ 0x1000 := by
  have := hc.2
  rw [Config.lastAddr] at this
  rw [pc_add_two_toNat hc]
  omega

theorem pc_add_four_le {s : State} (hc : s.canFetch) : (s.pc + 4).toNat ≤ 0x10FE := by
  have := hc.2
  rw [Config.lastAddr] at this
  rw [pc_add_four_toNat hc]
  omega

theorem pc_advance_le {s : State} (hc : s.canFetch) : (s.pc + 2).toNat ≤ 0x10FE :=
  (pc_add_two_le hc).trans (by decide)

theorem skipIf_inv {s : State} (h : MachineInv s) (hc : s.canFetch) (taken : Bool) :
    MachineInv (s.skipIf taken) := by
  cases taken with
  | true => exact setPc_inv h (pc_add_four_le hc)
  | false => exact setPc_inv h (pc_advance_le hc)

theorem jumpOffset_le (nnn : Addr12) (v : Byte) : (jumpOffset nnn v).toNat ≤ 0x10FE := by
  have hn := nnn.isLt
  have hv := v.isLt
  rw [jumpOffset_toNat]
  omega

theorem addrOf_le (nnn : Addr12) : (addrOf nnn).toNat ≤ 0xFFF := by
  have hn := nnn.isLt
  rw [addrOf_toNat]
  omega

theorem glyphAddr_le (a : Byte) : (glyphAddr a).toNat ≤ 0xFFF := by
  have ha := a.isLt
  rw [glyphAddr_toNat]
  omega

/-- A push writes an address at most 0x1000, and not to stack[15] (R25, R27). -/
theorem push_inv {s : State} (h : MachineInv s) (hc : s.canFetch) (hsp : s.sp ≠ 15) :
    MachineInv { s with stack := s.stack.set s.sp (s.pc + 2), sp := s.sp + 1 } where
  memory := h.memory
  pcRange := h.pcRange
  fontRegion := h.fontRegion
  indexRange := h.indexRange
  topSlot := Eq.trans (push_onlyChanges s (s.pc + 2) (.slot 15) (by simp [Ne.symm hsp])) h.topSlot
  slotRange := by
    intro j
    by_cases hj : j = s.sp
    · subst hj
      exact (congrArg BitVec.toNat (Vector.getElem_set_self s.sp.isLt)).trans_le (pc_add_two_le hc)
    · have hkeep := push_onlyChanges s (s.pc + 2) (.slot j) (by simp [hj])
      exact (congrArg BitVec.toNat hkeep).trans_le (h.slotRange j)

theorem pushReturn_inv {s u : State} (h : MachineInv s) (hc : s.canFetch) (hu : s.pushReturn = .ok u) :
    MachineInv u := by
  rcases pushReturn_cases s with ⟨-, hpush⟩ | ⟨hsp, hpush⟩
  · rw [hpush] at hu
    cases hu
  · obtain rfl := Except.ok.inj (hpush.symm.trans hu)
    exact push_inv h hc hsp

theorem popReturn_inv {s u : State} (h : MachineInv s) (hu : s.popReturn = .ok u) : MachineInv u := by
  rcases popReturn_cases s with ⟨-, hpop⟩ | ⟨-, hpop⟩
  · rw [hpop] at hu
    cases hu
  · obtain rfl := Except.ok.inj (hpop.symm.trans hu)
    exact h.congr rfl rfl rfl rfl ((h.slotRange _).trans (by decide))

theorem storeAtI_inv {s t : State} {bytes : List Byte} (h : MachineInv s) (hc : s.canFetch)
    (he : s.storeAtI bytes = .next t) : MachineInv t := by
  rcases storeAtI_cases he with ⟨e, rfl⟩ | ⟨m, hm, hs, rfl⟩
  · exact raise_inv h e
  · exact setPc_inv (stored_inv h hm hs) (pc_advance_le hc)

theorem loadRegs_inv {s : State} (h : MachineInv s) (bytes : List Byte) : MachineInv (s.loadRegs bytes) :=
  h.congr (s.loadRegs_mem bytes) (s.loadRegs_params bytes) (s.loadRegs_stack bytes) (s.loadRegs_I bytes) (by
    rw [State.loadRegs_pc]
    exact h.pcRange)

theorem loadRegs_advance_inv {s : State} (h : MachineInv s) (hc : s.canFetch) (bytes : List Byte) :
    MachineInv (s.loadRegs bytes).advance := by
  rw [State.advance_eq, State.loadRegs_pc]
  exact setPc_inv (loadRegs_inv h bytes) (pc_advance_le hc)

theorem writeV_inv {s : State} (h : MachineInv s) (x : Ix) (v : Byte) : MachineInv (s.writeV x v) :=
  h.congr (s.writeV_mem x v) (s.writeV_params x v) (s.writeV_stack x v) (s.writeV_I x v) h.pcRange

theorem countDraw_inv {s : State} (h : MachineInv s) : MachineInv s.countDraw :=
  h.congr s.countDraw_mem s.countDraw_params s.countDraw_stack s.countDraw_I h.pcRange

theorem setFb_inv {s : State} (h : MachineInv s) (f : Framebuffer) : MachineInv (s.setFb f) :=
  h.congr (s.setFb_mem f) (s.setFb_params f) (s.setFb_stack f) (s.setFb_I f) h.pcRange

theorem setDirty_inv {s : State} (h : MachineInv s) (d : Bool) : MachineInv (s.setDirty d) :=
  h.congr (s.setDirty_mem d) (s.setDirty_params d) (s.setDirty_stack d) (s.setDirty_I d) h.pcRange

theorem setDT_inv {s : State} (h : MachineInv s) (v : Byte) : MachineInv (s.setDT v) :=
  h.congr (s.setDT_mem v) (s.setDT_params v) (s.setDT_stack v) (s.setDT_I v) h.pcRange

theorem setST_inv {s : State} (h : MachineInv s) (v : Byte) : MachineInv (s.setST v) :=
  h.congr (s.setST_mem v) (s.setST_params v) (s.setST_stack v) (s.setST_I v) h.pcRange

theorem finishDraw_inv {s : State} (h : MachineInv s) (hc : s.canFetch) (d : Drawing) :
    MachineInv (s.finishDraw d) := by
  rw [State.finishDraw_eq]
  exact setPc_inv (setDirty_inv (writeV_inv (setFb_inv h _) 15 _) true) (pc_advance_le hc)

theorem ldVxK_inv {x : Ix} {s t : State} (h : MachineInv s) (hc : s.canFetch)
    (he : exec (.ldVxK x) s = .next t) : MachineInv t := by
  rcases ldVxK_cases x s with ⟨-, hwait⟩ | ⟨k, -, hkey⟩
  · obtain rfl := Host.Outcome.next.inj (hwait.symm.trans he)
    exact h
  · obtain rfl := Host.Outcome.next.inj (hkey.symm.trans he)
    exact setPc_inv (writeV_inv (countDraw_inv h) x _) (pc_advance_le hc)

/-- Every instruction the machine has keeps the invariant. -/
theorem exec_inv {i : Instr} {s t : State} (h : MachineInv s) (hc : s.canFetch)
    (hhas : i.wellFormed s.params.addI = true) (he : exec i s = .next t) : MachineInv t := by
  cases i
  case ret => exact transact_inv h he fun u hu => popReturn_inv h hu
  case call nnn =>
    exact transact_inv h he fun u hu =>
      setPc_inv (pushReturn_inv h hc hu) ((addrOf_le nnn).trans (by decide))
  case ldBVx | ldMemVx => exact storeAtI_inv h hc he
  case ldVxK => exact ldVxK_inv h hc he
  case ldVxMem => exact transact_inv h he fun bytes _ => loadRegs_advance_inv h hc bytes
  case drw => exact transact_inv h he fun _ _ => finishDraw_inv h hc _
  case skp | sknp => exact transact_inv h he fun _ _ => skipIf_inv h hc _
  all_goals obtain rfl := Host.Outcome.next.inj he
  case jp nnn => exact setPc_inv h ((addrOf_le nnn).trans (by decide))
  case jpV0 nnn => exact setPc_inv h (jumpOffset_le nnn _)
  case seImm | sneImm | seReg | sneReg => exact skipIf_inv h hc _
  case ldI nnn => exact setPc_inv (setI_inv h fun _ => addrOf_le nnn) (pc_advance_le hc)
  case ldFVx x => exact setPc_inv (setI_inv h fun _ => glyphAddr_le _) (pc_advance_le hc)
  case addIVx x =>
    have hadd : s.params.addI = true := hhas
    exact setPc_inv (setI_inv h fun hno => absurd (hadd.symm.trans hno) nofun) (pc_advance_le hc)
  case cls => exact setPc_inv (setDirty_inv (setFb_inv (countDraw_inv h) _) _) (pc_advance_le hc)
  case rnd => exact setPc_inv (writeV_inv (countDraw_inv h) _ _) (pc_advance_le hc)
  case ldDtVx => exact setPc_inv (setDT_inv h _) (pc_advance_le hc)
  case ldStVx => exact setPc_inv (setST_inv h _) (pc_advance_le hc)
  case addReg | sub | shr | subn | shl =>
    exact setPc_inv (writeV_inv (writeV_inv h 15 _) _ _) (pc_advance_le hc)
  all_goals exact setPc_inv (writeV_inv h _ _) (pc_advance_le hc)

/-- Settles O4: the four things a step can do each keep the invariant. -/
theorem stepKeepsInvariant : Obligations.StepKeepsInvariant := by
  intro s t h hstep
  rcases step_cases hstep with ⟨-, rfl⟩ | ⟨-, -, rfl⟩ | ⟨hc, w, -, rfl⟩ | ⟨hc, i, hd, he⟩
  · exact h
  · exact raise_inv h _
  · exact h.congr rfl rfl rfl rfl (pc_advance_le hc)
  · exact exec_inv h hc (decode_readsBack s.params.addI s.nextWord i hd).2 he

/-- A ROM is loaded above the font region and inside memory. -/
theorem loadRom_inv {s : State} (h : MachineInv s) (rom : List Byte) : MachineInv (s.loadRom rom) := by
  by_cases hlen : rom.length ≤ 3584
  · rw [loadRom_fits hlen]
    exact {
      memory := pokeAll_wf (by omega) h.memory
      pcRange := h.pcRange
      slotRange := h.slotRange
      topSlot := h.topSlot
      indexRange := h.indexRange
      fontRegion := fun hf a ha => by
        have hkeep := pokeAll_onlyChanges s 0x200 rom (.byte a) fun hb => by
          have := hb.1
          omega
        exact Eq.trans hkeep (h.fontRegion hf a ha) }
  · rw [loadRom_tooLong (Nat.lt_of_not_le hlen)]
    exact h.congr rfl rfl rfl rfl h.pcRange

theorem move_inv {c c' : Session} (m : Move) (hm : c.move m = some c') (h : MachineInv c.core) :
    MachineInv c'.core := by
  cases m with
  | runCycle => exact stepKeepsInvariant _ _ h (move_runCycle hm).1
  | loadRom rom => exact (move_loadRom hm).1 ▸ loadRom_inv h rom
  | reset =>
    cases hm
    exact afterReset_inv _ _ _
  | tick | setKey | consumeFrame =>
    cases hm
    exact h.congr rfl rfl rfl rfl h.pcRange

/-- Settles O5, by induction on the moves. -/
theorem sessionsKeepInvariant : Obligations.SessionsKeepInvariant := fun _ _ _ h hms =>
  moves_keep move_inv hms h

end Sys2Proof.Machine
end
